-- ==== Sys2Proof/Word.lean ====
section
/-! DEFINITION. The word types of the machine: what the spec measures in bits (spec/00_scope.md R5, R8, R9). -/

namespace Sys2Proof

/-- A general register, a timer, a byte of memory, an immediate `kk` (R5). -/
abbrev Byte := BitVec 8

/-- A 16-bit quantity: an instruction word, `PC`, `I`, a stack entry, the key latch (R5). -/
abbrev Half := BitVec 16

/-- A 4-bit register selector `x` or `y` (R9), a row count `n`, or a key number. -/
abbrev Nibble := BitVec 4

/-- A 12-bit address operand `nnn` (R9). -/
abbrev Addr := BitVec 12

end Sys2Proof
end

