-- ==== Sys2Proof/Config.lean ====
section
/-! DEFINITION. What is fixed for the hardware: its constants (spec/00_scope.md R5), the type of its straps and their
reference values (R6), and the free values, which the spec leaves open and which have no body here. -/

namespace Sys2Proof

namespace Config

/-- `MEM_SIZE`: 4096 bytes, addresses 0x000 to 0xFFF (R5). -/
def memSize : Nat := 4096

/-- The highest address, 0xFFF (R5). -/
def maxAddr : Nat := 0xFFF

/-- `ENTRY`: the program counter after reset and the first address of the image (R5). -/
def entry : Nat := 0x200

/-- `IMAGE_MAX` = 4096 - 0x200 = 3584 bytes (R5). -/
def imageMax : Nat := 3584

end Config

/-- `SHIFT_SOURCE`: which register `8xy6` and `8xyE` shift (R6, D2). -/
inductive ShiftSource where
  | vx
  | vy
  deriving DecidableEq, Repr

/-- `MEM_I_INC`: what `Fx55` and `Fx65` add to `I` afterwards (R6, D3). -/
inductive MemIInc where
  | none
  | x
  | xPlus1
  deriving DecidableEq, Repr

/-- `BNNN_OFFSET`: what `Bnnn` adds to its base (R6, D4). -/
inductive BnnnOffset where
  | v0
  | vx
  | i
  deriving DecidableEq, Repr, Inhabited

/-- A positive rate, in steps per second (R6, `IPS`). DESIGN CHOICE: a whole number; no rule reads it (log entry 5). Safe. -/
abbrev Rate := { n : Nat // 0 < n }

/-- The strap record `Q` (R6): sampled at `Reset`, constant until the next one. Only legal values can be written:
`FONT_BASE + 80 ≤ 0x200` is `fontBase : Fin 433`, and `FONT_DATA` is exactly 80 bytes. -/
structure Straps where
  /-- `SHIFT_SOURCE`. -/
  shiftSource : ShiftSource
  /-- `MEM_I_INC`. -/
  memIInc : MemIInc
  /-- `BNNN_OFFSET`. -/
  bnnnOffset : BnnnOffset
  /-- `X_FX1E`: whether `Fx1E` is an instruction (D5). -/
  xFx1e : Bool
  /-- `FONT_BASE`, 0 to 0x1B0. -/
  fontBase : Fin 433
  /-- `FONT_DATA`, glyph `d` at offset `5 * d`. -/
  fontData : Vector Byte 80
  /-- `IPS`, read by no rule (spec/70_reset_and_hazards.md R191). -/
  ips : Rate
  deriving DecidableEq, Repr

namespace Config

/-- FREE VALUE. The random byte handed to a step, for the value of the counter `State.draws` (spec/10_state.md R37, D24:
"a free input of the step (a draw)"). Safe: nothing is known of it (log entry 2). -/
opaque rnd : Nat → Byte

/-- FREE VALUE. The byte at an address of 0x200..0xFFF after a reset with an oversize image, for the value of
`State.draws` at that reset (spec/70_reset_and_hazards.md R183: "a model gives those bytes any value"). Safe (log entry 10). -/
opaque oversizeByte : Nat → Nat → Byte

/-- FREE VALUE. The strap `BNNN_OFFSET` of `State.reset`: the spec leaves it OPEN with no reference value (R6, D4). Safe
(log entry 4). -/
opaque bnnnOffset : BnnnOffset

/-- FREE VALUE. The strap `IPS` of `State.reset`, less one: the spec gives the rate no value (R6, D18). Safe (log entry 5). -/
opaque ipsLessOne : Nat

/-- The reference glyphs, digits 0 to F, five rows each, bit 7 leftmost (spec/10_state.md R31; the spec marks the table
"from general knowledge, not in source", G7: log entry 8). -/
def glyphs : List (List Byte) :=
  [[0xF0, 0x90, 0x90, 0x90, 0xF0],
   [0x20, 0x60, 0x20, 0x20, 0x70],
   [0xF0, 0x10, 0xF0, 0x80, 0xF0],
   [0xF0, 0x10, 0xF0, 0x10, 0xF0],
   [0x90, 0x90, 0xF0, 0x10, 0x10],
   [0xF0, 0x80, 0xF0, 0x10, 0xF0],
   [0xF0, 0x80, 0xF0, 0x90, 0xF0],
   [0xF0, 0x10, 0x20, 0x40, 0x40],
   [0xF0, 0x90, 0xF0, 0x90, 0xF0],
   [0xF0, 0x90, 0xF0, 0x10, 0xF0],
   [0xF0, 0x90, 0xF0, 0x90, 0x90],
   [0xE0, 0x90, 0xE0, 0x90, 0xE0],
   [0xF0, 0x80, 0x80, 0x80, 0xF0],
   [0xE0, 0x90, 0x90, 0x90, 0xE0],
   [0xF0, 0x80, 0xF0, 0x80, 0xF0],
   [0xF0, 0x80, 0xF0, 0x80, 0x80]]

/-- `FONT_DATA` at its reference value: the glyphs one after the other (R31). -/
def fontReference : Vector Byte 80 := Vector.ofFn fun j => glyphs.flatten.getD j.val 0

/-- The straps at their reference values (R6), with the two that have none given by the caller. -/
def referenceStraps (off : BnnnOffset) (ips : Rate) : Straps where
  shiftSource := .vx
  memIInc := .none
  bnnnOffset := off
  xFx1e := false
  fontBase := 0x050
  fontData := fontReference
  ips := ips

/-- The straps of `State.reset`. DESIGN CHOICE: the reference values (log entry 3), free values where there is none
(log entries 4, 5). -/
def resetStraps : Straps := referenceStraps bnnnOffset ⟨ipsLessOne + 1, Nat.succ_pos _⟩

end Config

end Sys2Proof
end

