-- ==== Sys2Proof/Syntax.lean ====
section
/-! DEFINITION. The instructions: one constructor for each row of spec/opcode_table.json (spec/30_encoding.md R74), in the
table's order. Operands are the slices of spec/00_scope.md R9 at their own widths. -/

namespace Sys2Proof

/-- The 34 instructions. The docstring of each names its pattern and the rule that gives its meaning. -/
inductive Instr where
  /-- `00E0`, `CLS`, R130. -/
  | cls
  /-- `00EE`, `RET`, R93. -/
  | ret
  /-- `1nnn`, `JP nnn`, R91. -/
  | jp (nnn : Addr)
  /-- `2nnn`, `CALL nnn`, R92. -/
  | call (nnn : Addr)
  /-- `3xkk`, `SE Vx, kk`, R94. -/
  | seImm (x : Nibble) (kk : Byte)
  /-- `4xkk`, `SNE Vx, kk`, R95. -/
  | sneImm (x : Nibble) (kk : Byte)
  /-- `5xy0`, `SE Vx, Vy`, R96. -/
  | seReg (x y : Nibble)
  /-- `6xkk`, `LD Vx, kk`, R101. -/
  | ldImm (x : Nibble) (kk : Byte)
  /-- `7xkk`, `ADD Vx, kk`, R102. -/
  | addImm (x : Nibble) (kk : Byte)
  /-- `8xy0`, `LD Vx, Vy`, R104. -/
  | ldReg (x y : Nibble)
  /-- `8xy1`, `OR Vx, Vy`, R105. -/
  | orReg (x y : Nibble)
  /-- `8xy2`, `AND Vx, Vy`, R106. -/
  | andReg (x y : Nibble)
  /-- `8xy3`, `XOR Vx, Vy`, R107. -/
  | xorReg (x y : Nibble)
  /-- `8xy4`, `ADD Vx, Vy`, R108. -/
  | addReg (x y : Nibble)
  /-- `8xy5`, `SUB Vx, Vy`, R109. -/
  | subReg (x y : Nibble)
  /-- `8xy6`, `SHR Vx, Vy`, R110. -/
  | shr (x y : Nibble)
  /-- `8xy7`, `SUBN Vx, Vy`, R111. -/
  | subnReg (x y : Nibble)
  /-- `8xyE`, `SHL Vx, Vy`, R112. -/
  | shl (x y : Nibble)
  /-- `9xy0`, `SNE Vx, Vy`, R97. -/
  | sneReg (x y : Nibble)
  /-- `Annn`, `LD I, nnn`, R120. -/
  | ldI (nnn : Addr)
  /-- `Bnnn`, `JP off, nnn`, R121. -/
  | jpOff (nnn : Addr)
  /-- `Cxkk`, `RND Vx, kk`, R135. -/
  | rnd (x : Nibble) (kk : Byte)
  /-- `Dxyn`, `DRW Vx, Vy, n`, R131. -/
  | drw (x y n : Nibble)
  /-- `Ex9E`, `SKP Vx`, R141. -/
  | skp (x : Nibble)
  /-- `ExA1`, `SKNP Vx`, R142. -/
  | sknp (x : Nibble)
  /-- `Fx07`, `LD Vx, DT`, R147. -/
  | ldVxDt (x : Nibble)
  /-- `Fx0A`, `LD Vx, K`, R143. -/
  | ldVxK (x : Nibble)
  /-- `Fx15`, `LD DT, Vx`, R148. -/
  | ldDtVx (x : Nibble)
  /-- `Fx18`, `LD ST, Vx`, R149. -/
  | ldStVx (x : Nibble)
  /-- `Fx1E`, `ADD I, Vx`, R127: an instruction only under the strap `X_FX1E`. -/
  | addIVx (x : Nibble)
  /-- `Fx29`, `LD F, Vx`, R123. -/
  | ldF (x : Nibble)
  /-- `Fx33`, `LD B, Vx`, R124. -/
  | ldB (x : Nibble)
  /-- `Fx55`, `LD [I], Vx`, R125. -/
  | storeRegs (x : Nibble)
  /-- `Fx65`, `LD Vx, [I]`, R126. -/
  | loadRegs (x : Nibble)
  deriving DecidableEq, Repr

end Sys2Proof
end

