-- ==== Sys2Proof/WellFormed.lean ====
section
/-! DEFINITION. Which instructions the hardware has under given straps. The operand widths are in the types of `Instr`,
so the one check left is the strap of the extension (spec/30_encoding.md R74, R77; spec/42_index_memory.md R127). -/

namespace Sys2Proof

/-- `i` is an instruction under the straps `q`: all 33 of spec/00_scope.md R2, and `Fx1E` exactly when `X_FX1E = 1`. -/
def Instr.wf (q : Straps) (i : Instr) : Bool :=
  match i with
  | .addIVx _ => q.xFx1e
  | .cls | .ret | .jp _ | .call _ | .seImm _ _ | .sneImm _ _ | .seReg _ _ | .ldImm _ _ | .addImm _ _ => true
  | .ldReg _ _ | .orReg _ _ | .andReg _ _ | .xorReg _ _ | .addReg _ _ | .subReg _ _ | .shr _ _ | .subnReg _ _ => true
  | .shl _ _ | .sneReg _ _ | .ldI _ | .jpOff _ | .rnd _ _ | .drw _ _ _ | .skp _ | .sknp _ | .ldVxDt _ => true
  | .ldVxK _ | .ldDtVx _ | .ldStVx _ | .ldF _ | .ldB _ | .storeRegs _ | .loadRegs _ => true

end Sys2Proof
end

