-- ==== Sys2Proof/Decode.lean ====
section
/-! DEFINITION. The decoder (spec/30_encoding.md R70 to R77) and, after it, the encoder from the same table (R74). -/

namespace Sys2Proof

/-- Why a word is not an instruction. -/
inductive Reject where
  /-- The word matches no row of R74 (R75): the sequencer raises `InvalidOpcode`. -/
  | invalidOpcode (ins : Half)
  deriving DecidableEq, Repr

namespace Ins

/-- `op = ins[15:12]`, the "top nibble" (R71). -/
def op (ins : Half) : Nibble := ins.extractLsb' 12 4

/-- `x = ins[11:8]` (R9). -/
def x (ins : Half) : Nibble := ins.extractLsb' 8 4

/-- `y = ins[7:4]` (R9). -/
def y (ins : Half) : Nibble := ins.extractLsb' 4 4

/-- `n = ins[3:0]` (R9). -/
def n (ins : Half) : Nibble := ins.extractLsb' 0 4

/-- `kk = ins[7:0]` (R9). -/
def kk (ins : Half) : Byte := ins.extractLsb' 0 8

/-- `nnn = ins[11:0]` (R9). -/
def nnn (ins : Half) : Addr := ins.extractLsb' 0 12

end Ins

/-- Top nibble 0: `00E0` and `00EE` need all sixteen bits (R73). -/
def decode0 (ins : Half) : Except Reject Instr :=
  match ins.toNat with
  | 0x00E0 => .ok .cls
  | 0x00EE => .ok .ret
  | _ => .error (.invalidOpcode ins)

/-- Top nibble 8: format `XYF`, told apart by `ins[3:0]` (R74). -/
def decode8 (ins : Half) : Except Reject Instr :=
  let x := Ins.x ins
  let y := Ins.y ins
  match (Ins.n ins).toNat with
  | 0x0 => .ok (.ldReg x y)
  | 0x1 => .ok (.orReg x y)
  | 0x2 => .ok (.andReg x y)
  | 0x3 => .ok (.xorReg x y)
  | 0x4 => .ok (.addReg x y)
  | 0x5 => .ok (.subReg x y)
  | 0x6 => .ok (.shr x y)
  | 0x7 => .ok (.subnReg x y)
  | 0xE => .ok (.shl x y)
  | _ => .error (.invalidOpcode ins)

/-- Top nibble E: the whole low byte is compared (R73). -/
def decodeE (ins : Half) : Except Reject Instr :=
  match (Ins.kk ins).toNat with
  | 0x9E => .ok (.skp (Ins.x ins))
  | 0xA1 => .ok (.sknp (Ins.x ins))
  | _ => .error (.invalidOpcode ins)

/-- Top nibble F: the whole low byte is compared (R73); `Fx1E` has a row only when `X_FX1E = 1` (R74, R127). -/
def decodeF (fx1e : Bool) (ins : Half) : Except Reject Instr :=
  let x := Ins.x ins
  match (Ins.kk ins).toNat with
  | 0x07 => .ok (.ldVxDt x)
  | 0x0A => .ok (.ldVxK x)
  | 0x15 => .ok (.ldDtVx x)
  | 0x18 => .ok (.ldStVx x)
  | 0x1E => if fx1e then .ok (.addIVx x) else .error (.invalidOpcode ins)
  | 0x29 => .ok (.ldF x)
  | 0x33 => .ok (.ldB x)
  | 0x55 => .ok (.storeRegs x)
  | 0x65 => .ok (.loadRegs x)
  | _ => .error (.invalidOpcode ins)

/-- Decoding, a function of the word and of the strap `X_FX1E` only (R73): by the top nibble and, for the top nibbles with
several rows, by the trailing nibble or byte. The match is exact on every literal digit (D9, log entry 13). -/
def decode (fx1e : Bool) (ins : Half) : Except Reject Instr :=
  match (Ins.op ins).toNat with
  | 0x0 => decode0 ins
  | 0x1 => .ok (.jp (Ins.nnn ins))
  | 0x2 => .ok (.call (Ins.nnn ins))
  | 0x3 => .ok (.seImm (Ins.x ins) (Ins.kk ins))
  | 0x4 => .ok (.sneImm (Ins.x ins) (Ins.kk ins))
  | 0x5 => if Ins.n ins = 0 then .ok (.seReg (Ins.x ins) (Ins.y ins)) else .error (.invalidOpcode ins)
  | 0x6 => .ok (.ldImm (Ins.x ins) (Ins.kk ins))
  | 0x7 => .ok (.addImm (Ins.x ins) (Ins.kk ins))
  | 0x8 => decode8 ins
  | 0x9 => if Ins.n ins = 0 then .ok (.sneReg (Ins.x ins) (Ins.y ins)) else .error (.invalidOpcode ins)
  | 0xA => .ok (.ldI (Ins.nnn ins))
  | 0xB => .ok (.jpOff (Ins.nnn ins))
  | 0xC => .ok (.rnd (Ins.x ins) (Ins.kk ins))
  | 0xD => .ok (.drw (Ins.x ins) (Ins.y ins) (Ins.n ins))
  | 0xE => decodeE ins
  | _ => decodeF fx1e ins

/-- The instruction word of two bytes: big-endian, the byte at the lower address is `ins[15:8]`
(spec/20_memory.md R50). -/
def wordOfBytes (hi lo : Byte) : Half := hi ++ lo

/-- Decoding the two bytes of an instruction as they stand in memory. -/
def decodeBytes (fx1e : Bool) (hi lo : Byte) : Except Reject Instr := decode fx1e (wordOfBytes hi lo)

/-- The byte of an instruction word that stands at the lower address (R50). -/
def hiByte (ins : Half) : Byte := ins.extractLsb' 8 8

/-- The byte of an instruction word that stands at the higher address (R50). -/
def loByte (ins : Half) : Byte := ins.extractLsb' 0 8

/-- The sixteen bits that a number of `nbits` bits stands for, numbered as spec/opcode_table.json numbers them: the table's
words are 16 bits, bit 15 the first bit of the pattern, and bits above `nbits` are 0. -/
def tableWord (nbits w : Nat) : Half := BitVec.ofNat 16 (w % 2 ^ min nbits 16)

/-- What the decoder reads from a word of spec/opcode_table.json. The table lists the row of `Fx1E`, which is an
instruction only when `X_FX1E = 1`, so the table's words are read under that strap (log entry 23). No instruction is longer
than 16 bits (R70). -/
def decodeTableWord (nbits w : Nat) : Option Instr :=
  if nbits ≤ 16 then
    match decodeBytes true (hiByte (tableWord nbits w)) (loByte (tableWord nbits w)) with
    | .ok i => some i
    | .error _ => none
  else none

/-- Format `NNN` of R71: `op`, then a 12-bit address; `++` puts the more significant part first (R8). -/
def formatNNN (op : Nibble) (nnn : Addr) : Half := op ++ nnn

/-- Format `XKK` of R71: `op`, a register selector, a byte. Format `XFF` is the same with a fixed byte. -/
def formatXKK (op x : Nibble) (kk : Byte) : Half := op ++ x ++ kk

/-- Format `XYN` of R71: `op`, two register selectors, a nibble. Format `XYF` is the same with a fixed nibble. -/
def formatXYN (op x y n : Nibble) : Half := op ++ x ++ y ++ n

/-- The word of an instruction, from the patterns of R74: by the formats of R71. -/
def encode (i : Instr) : Half :=
  match i with
  | .cls => 0x00E0#16
  | .ret => 0x00EE#16
  | .jp nnn => formatNNN 0x1#4 nnn
  | .call nnn => formatNNN 0x2#4 nnn
  | .seImm x kk => formatXKK 0x3#4 x kk
  | .sneImm x kk => formatXKK 0x4#4 x kk
  | .seReg x y => formatXYN 0x5#4 x y 0x0#4
  | .ldImm x kk => formatXKK 0x6#4 x kk
  | .addImm x kk => formatXKK 0x7#4 x kk
  | .ldReg x y => formatXYN 0x8#4 x y 0x0#4
  | .orReg x y => formatXYN 0x8#4 x y 0x1#4
  | .andReg x y => formatXYN 0x8#4 x y 0x2#4
  | .xorReg x y => formatXYN 0x8#4 x y 0x3#4
  | .addReg x y => formatXYN 0x8#4 x y 0x4#4
  | .subReg x y => formatXYN 0x8#4 x y 0x5#4
  | .shr x y => formatXYN 0x8#4 x y 0x6#4
  | .subnReg x y => formatXYN 0x8#4 x y 0x7#4
  | .shl x y => formatXYN 0x8#4 x y 0xE#4
  | .sneReg x y => formatXYN 0x9#4 x y 0x0#4
  | .ldI nnn => formatNNN 0xA#4 nnn
  | .jpOff nnn => formatNNN 0xB#4 nnn
  | .rnd x kk => formatXKK 0xC#4 x kk
  | .drw x y n => formatXYN 0xD#4 x y n
  | .skp x => formatXKK 0xE#4 x 0x9E#8
  | .sknp x => formatXKK 0xE#4 x 0xA1#8
  | .ldVxDt x => formatXKK 0xF#4 x 0x07#8
  | .ldVxK x => formatXKK 0xF#4 x 0x0A#8
  | .ldDtVx x => formatXKK 0xF#4 x 0x15#8
  | .ldStVx x => formatXKK 0xF#4 x 0x18#8
  | .addIVx x => formatXKK 0xF#4 x 0x1E#8
  | .ldF x => formatXKK 0xF#4 x 0x29#8
  | .ldB x => formatXKK 0xF#4 x 0x33#8
  | .storeRegs x => formatXKK 0xF#4 x 0x55#8
  | .loadRegs x => formatXKK 0xF#4 x 0x65#8

end Sys2Proof
end

