-- ==== Sys2Proof/Machine/State.lean ====
section
/-! DEFINITION. The state of the machine (spec/10_state.md R20 to R39), the events that change it (spec/00_scope.md R7),
the reasons a run ends, and the state after reset (R38). -/

namespace Sys2Proof.Machine

/-- The five fault kinds (spec/60_exceptions.md R150: "The taxonomy is closed and has five kinds"). Entering a fault is a
NEXT state whose run state is `halted K` (R156), so `step` itself never ends in `Host.Outcome.fault`: what the spec calls
a fault is state that the model holds (log entry 6). Safe: nothing the spec describes is cut short. -/
inductive Fault where
  /-- Raised by decoding a word that matches no row of the opcode table (R151). Safe. -/
  | invalidOpcode
  /-- Raised by `2nnn` when sixteen entries are in use (R152). Safe. -/
  | stackOverflow
  /-- Raised by `00EE` when no entry is in use (R153). Safe. -/
  | stackUnderflow
  /-- Raised by a fetch, `Dxyn`, `Fx33`, `Fx55` or `Fx65` that would touch an address above 0xFFF (R154). Safe. -/
  | addressOutOfRange
  /-- Raised by `Reset` with an image longer than 3584 bytes (R155). Safe. -/
  | imageTooLarge
  deriving DecidableEq, Repr

/-- Why the model has no meaning to give. -/
inductive Refusal where
  /-- The instruction of this mnemonic has no meaning in the model yet; raised by `exec` only. Safe. -/
  | notModelled (mnemonic : String)
  deriving DecidableEq, Repr

/-- The run state `RUN`, the sequencer's sub-state (R35). -/
inductive Run where
  /-- The next `Step` fetches and executes. -/
  | running
  /-- An `Fx0A` waits for a newly pressed key; `PC` is its address. -/
  | awaitingKey (x : Nibble)
  /-- A waiting `Fx0A` has been handed key `k`; the next `Step` completes it. -/
  | keyReady (x k : Nibble)
  /-- "A signaled halted state", terminal until `Reset`. -/
  | halted (k : Fault)
  deriving DecidableEq, Repr

/-- Memory: the addresses whose byte differs from what `Reset` without an image puts there, with their bytes, in strictly
rising order (the form is `Memory.wf`, Machine/Ops.lean). -/
abbrev Memory := List Host.Cell

/-- The display plane: 32 rows (R32), each the 64 pixels of the row; bit `c` of a row is the pixel of column `c`
(log entry 27). -/
abbrev Display := Vector (BitVec 64) 32

/-- The atomic events (spec/00_scope.md R7). The byte `rnd` of `Step(rnd)` is a free value (log entry 2). -/
inductive Event where
  /-- One fetch, decode and execute (R36). -/
  | step
  /-- The 60 Hz decrement of both timers (spec/60_exceptions.md R165). -/
  | tick60
  /-- The host's replacement of the key latch (spec/45_input.md R144). -/
  | keyUpdate (k : Half)
  /-- The host's read of the display (spec/43_display.md R133). -/
  | readDisplay
  /-- Construction of the whole state from an image and straps (spec/70_reset_and_hazards.md R180). -/
  | reset (image : List Byte) (q : Straps)
  deriving DecidableEq, Repr

/-- The state: the tuple of spec/10_state.md's opening paragraph, the straps, and two fields of the model's own. -/
structure State where
  /-- `V[0..15]` (R20); `V[15]` is VF (R21). -/
  v : Vector Byte 16
  /-- The index register `I` (R22). -/
  i : Half
  /-- The program counter `PC` (R23). -/
  pc : Half
  /-- The stack pointer `SP`, the number of entries in use (R24). -/
  sp : Fin 17
  /-- The call stack `STACK[0..15]` (R24). -/
  stack : Vector Half 16
  /-- The delay timer `DT` (R25). -/
  dt : Byte
  /-- The sound timer `ST` (R26). -/
  st : Byte
  /-- `MEM` (R30). -/
  mem : Memory
  /-- `DISP` (R32). -/
  disp : Display
  /-- The key latch `KEYS` (R33); bit `j` is key `j`. -/
  keys : Half
  /-- `RUN` (R35). -/
  run : Run
  /-- The strap record `Q` (spec/00_scope.md R6). -/
  straps : Straps
  /-- THE MODEL'S OWN: how many free values have been used (log entry 2). -/
  draws : Nat
  /-- THE MODEL'S OWN: the events that come next, the first one first; when none is listed the next event is a `Step`
  (log entry 1). -/
  pending : List Event
  deriving DecidableEq, Repr

/-- The state after `Reset` with the empty image under the straps `q` (R38): memory lists nothing. -/
def State.resetBase (q : Straps) : State where
  v := Vector.replicate 16 0
  i := 0
  pc := BitVec.ofNat 16 Config.entry
  sp := 0
  stack := Vector.replicate 16 0
  dt := 0
  st := 0
  mem := []
  disp := Vector.replicate 32 0
  keys := 0
  run := .running
  straps := q
  draws := 0
  pending := []

/-- The machine right after reset with the empty image (R38), under the straps of `Config.resetStraps` (log entries 3, 4,
5). The values 0 that R38 marks "decided, D12" are log entry 7; `draws` and `pending` are DESIGN CHOICE (entries 1, 2). -/
def State.reset : State := State.resetBase Config.resetStraps

end Sys2Proof.Machine
end

