-- ==== Sys2Proof/Machine/Ops.lean ====
section
/-! DEFINITION. The named operations every meaning goes through: memory, registers, the index register, the call stack,
the program counter, and fault entry. There is no return from a fault (spec/60_exceptions.md R159: "no return-from-trap
instruction, no handler, no resumption"); the only remedy is `Reset` (Machine/Events.lean). -/

namespace Sys2Proof.Machine

/-- What every instruction answers. -/
abbrev Result := Host.Outcome State Fault Refusal

/-- What `Reset` with the empty image puts at address `a` (spec/10_state.md R38): the font bytes of the straps at
`FONT_BASE .. FONT_BASE + 79` (R31), 0 in every other byte (D12, log entries 7 and 9). It is what an address not listed in
`State.mem` reads as. -/
def resetByte (q : Straps) (a : Nat) : Byte :=
  if h : q.fontBase.val ≤ a ∧ a < q.fontBase.val + 80 then q.fontData[a - q.fontBase.val]'(by omega) else 0

namespace Memory

/-- The byte listed for address `a`, if there is one. -/
def find? : Memory → Nat → Option Byte
  | [], _ => none
  | (b, w) :: m, a => if a = b then some w else find? m a

/-- The memory without an entry for `a`. -/
def erase : Memory → Nat → Memory
  | [], _ => []
  | (b, w) :: m, a => if a = b then erase m a else (b, w) :: erase m a

/-- The memory with the entry `(a, x)` in its place in the rising order. -/
def insert : Memory → Nat → Byte → Memory
  | [], a, x => [(a, x)]
  | (b, w) :: m, a, x =>
    if a < b then (a, x) :: (b, w) :: m
    else if a = b then (a, x) :: m
    else (b, w) :: insert m a x

/-- `MemRead(a, 1)` (spec/00_scope.md R10). -/
def read (q : Straps) (m : Memory) (a : Nat) : Byte := (find? m a).getD (resetByte q a)

/-- `MemWrite(a, 1, x)` (R10): an entry equal to what an unlisted address reads as is not kept. -/
def write (q : Straps) (m : Memory) (a : Nat) (x : Byte) : Memory :=
  if x = resetByte q a then erase m a else insert m a x

/-- Successive bytes stored from address `a` upward. -/
def writeBytes (q : Straps) (m : Memory) (a : Nat) : List Byte → Memory
  | [] => m
  | x :: xs => writeBytes q (write q m a x) (a + 1) xs

/-- The addresses of the list rise strictly, starting at `lo` or above. -/
def rising : Nat → Memory → Bool
  | _, [] => true
  | lo, (b, _) :: m => decide (lo ≤ b) && rising (b + 1) m

/-- The canonical form: addresses strictly rising, all within 0x000 to 0xFFF, and no entry equal to what an unlisted
address reads as. Two memories in this form that read alike are the same list. -/
def wf (q : Straps) (m : Memory) : Bool :=
  rising 0 m && m.all fun c => decide (c.1 < Config.memSize) && decide (c.2 ≠ resetByte q c.1)

end Memory

namespace State

/-- The byte of memory at address `a`. -/
def readByte (s : State) (a : Nat) : Byte := Memory.read s.straps s.mem a

/-- The state with byte `x` stored at address `a`. -/
def writeByte (s : State) (a : Nat) (x : Byte) : State := { s with mem := Memory.write s.straps s.mem a x }

/-- The state with successive bytes stored from address `a` upward. -/
def writeBytes (s : State) (a : Nat) (xs : List Byte) : State :=
  { s with mem := Memory.writeBytes s.straps s.mem a xs }

/-- The `count` bytes of memory from address `a` upward. -/
def readBytes (s : State) (a count : Nat) : List Byte := (List.range count).map fun j => s.readByte (a + j)

/-- `V[x]` (spec/10_state.md R20: no register is hardwired). -/
def reg (s : State) (x : Nibble) : Byte := s.v[x.toNat]'x.isLt

/-- `V[x] <- b` (R20). -/
def setReg (s : State) (x : Nibble) (b : Byte) : State := { s with v := s.v.set x.toNat b x.isLt }

/-- The number of VF (R21). -/
def vf : Nibble := 15

/-- The result to `V[x]`, then the flag to `V[15]`: with `x = F` the flag remains (spec/41_load_arith.md R100; the spec's
decision D7, log entry 11). The values are computed by the caller from the state before either write. -/
def setRegFlag (s : State) (x : Nibble) (b flag : Byte) : State := (s.setReg x b).setReg vf flag

/-- `I <- w`, which always means `I <- w & 0x0FFF` (spec/10_state.md R22). -/
def setI (s : State) (w : Half) : State := { s with i := w &&& 0x0FFF#16 }

/-- `PC <- t`. -/
def setPc (s : State) (t : Half) : State := { s with pc := t }

/-- `npc`, the address of the instruction after this one (spec/00_scope.md R10, spec/10_state.md R36 step 3). -/
def npc (s : State) : Half := s.pc + 2#16

/-- The end of a step whose rule does not write `PC`: `PC <- npc` (R36 step 5). -/
def advance (s : State) : State := s.setPc s.npc

/-- A conditional skip: `PC <- npc + 2` when the condition holds, else `PC <- npc` (spec/40_control_flow.md R90). The
skipped word is not looked at. -/
def skipIf (c : Bool) (s : State) : State := if c then s.setPc (s.npc + 2#16) else s.advance

/-- Push (spec/10_state.md R24): requires `SP < 16`, answers nothing when sixteen entries are in use. -/
def push (s : State) (a : Half) : Option State :=
  if h : s.sp.val < 16 then some { s with stack := s.stack.set s.sp.val a h, sp := ⟨s.sp.val + 1, by omega⟩ } else none

/-- Pop (R24): the newest entry and the state without it; requires `SP > 0`. The entry keeps its old value in the array
(D19, log entry 18). -/
def pop (s : State) : Option (Half × State) :=
  if h : 0 < s.sp.val then
    some (s.stack[s.sp.val - 1]'(by omega), { s with sp := ⟨s.sp.val - 1, by omega⟩ })
  else none

end State

/-- Fault entry (spec/60_exceptions.md R156): every state element keeps its value, `PC` included, except
`RUN <- Halted(K)`. Nothing is saved and control goes nowhere. -/
def raise (k : Fault) (s : State) : Result := .next { s with run := .halted k }

/-- Some byte of the `count` bytes at `base`, `base + 1`, ... has an address above 0xFFF (spec/20_memory.md R53,
spec/42_index_memory.md R122). The sums are integers and do not wrap; no byte is no access. -/
def outOfRange (base count : Nat) : Bool := decide (0 < count) && decide (Config.maxAddr < base + (count - 1))

end Sys2Proof.Machine
end

