-- ==== Sys2Proof/Machine/Operands.lean ====
section
/-! DEFINITION. The operand forms: where an instruction's operands come from, the strap-selected ones included
(spec/00_scope.md R6, R9; spec/41_load_arith.md R110; spec/42_index_memory.md R121 to R126; spec/45_input.md R140). -/

namespace Sys2Proof.Machine

/-- A 12-bit address operand as a 16-bit value, `zext_16(nnn)` (spec/30_encoding.md R72). -/
def addr16 (nnn : Addr) : Half := nnn.zeroExtend 16

/-- The register that `8xy6` and `8xyE` shift: `V[x]` or, under `SHIFT_SOURCE = VY`, `V[y]` (R110; log entry 3). -/
def shiftOperand (x y : Nibble) (s : State) : Byte :=
  match s.straps.shiftSource with
  | .vx => s.reg x
  | .vy => s.reg y

/-- The offset of `Bnnn`, by `BNNN_OFFSET` (R121; log entry 4). Under `VX` the selector is `ins[11:8]`, the top four bits
of `nnn` (spec/30_encoding.md R72). -/
def jumpOffset (nnn : Addr) (s : State) : Half :=
  match s.straps.bnnnOffset with
  | .v0 => (s.reg 0).zeroExtend 16
  | .vx => (s.reg (nnn.extractLsb' 8 4)).zeroExtend 16
  | .i => s.i

/-- `V[x][3:0]`, the digit of `Fx29` and the key number of `Ex9E` and `ExA1`: the low nibble, bits 7:4 ignored (R123, R140;
the spec's decision D10, log entry 14). -/
def lowNibble (x : Nibble) (s : State) : Nibble := (s.reg x).extractLsb' 0 4

/-- `KEYS[k]` (spec/10_state.md R33). -/
def keyDown (k : Nibble) (s : State) : Bool := s.keys.getLsbD k.toNat

/-- The address of the glyph of digit `d`: `FONT_BASE + 5 * d` (R123). -/
def glyphAddr (q : Straps) (d : Nibble) : Half := BitVec.ofNat 16 (q.fontBase.val + 5 * d.toNat)

/-- The registers `V[0]` to `V[x]` inclusive, in order (R125). -/
def regsUpTo (x : Nibble) (s : State) : List Byte :=
  (List.range (x.toNat + 1)).map fun j => s.reg (BitVec.ofNat 4 j)

/-- What `Fx55` and `Fx65` write to `I` before the mask of `State.setI`, by `MEM_I_INC` (R125, R126; log entry 3). -/
def blockIndexAfter (x : Nibble) (s : State) : Half :=
  match s.straps.memIInc with
  | .none => s.i
  | .x => s.i + x.zeroExtend 16
  | .xPlus1 => s.i + x.zeroExtend 16 + 1#16

/-- `Fx55` and `Fx65` leave `I` alone under `MEM_I_INC = NONE` and write it, masked, under the other two (R22, R125). -/
def setBlockIndex (x : Nibble) (s : State) : State :=
  match s.straps.memIInc with
  | .none => s
  | .x | .xPlus1 => s.setI (blockIndexAfter x s)

/-- The three decimal digits of a byte, hundreds first, one to a byte (R124; the order is the spec's G4, log entry 22). -/
def bcdDigits (b : Byte) : List Byte :=
  [BitVec.ofNat 8 (b.toNat / 100), BitVec.ofNat 8 (b.toNat / 10 % 10), BitVec.ofNat 8 (b.toNat % 10)]

end Sys2Proof.Machine
end

