-- ==== Sys2Proof/Machine/ControlFlow.lean ====
section
/-! DEFINITION. Control flow (spec/40_control_flow.md R90 to R97). Targets are not inspected (D23, log entry 30). -/

namespace Sys2Proof.Machine

/-- `1nnn`: `PC <- nnn` (R91). -/
def execJp (nnn : Addr) (s : State) : Result := .next (s.setPc (addr16 nnn))

/-- `2nnn`: push `npc`, `PC <- nnn`; `StackOverflow` when sixteen entries are in use (R92). -/
def execCall (nnn : Addr) (s : State) : Result :=
  match s.push s.npc with
  | some t => .next (t.setPc (addr16 nnn))
  | none => raise .stackOverflow s

/-- `00EE`: pop into `PC`; `StackUnderflow` when the stack is empty (R93). -/
def execRet (s : State) : Result :=
  match s.pop with
  | some (a, t) => .next (t.setPc a)
  | none => raise .stackUnderflow s

/-- `3xkk`: skip if `V[x] = kk` (R94). -/
def execSeImm (x : Nibble) (kk : Byte) (s : State) : Result := .next (s.skipIf (decide (s.reg x = kk)))

/-- `4xkk`: skip if `V[x] ≠ kk` (R95). -/
def execSneImm (x : Nibble) (kk : Byte) (s : State) : Result := .next (s.skipIf (decide (s.reg x ≠ kk)))

/-- `5xy0`: skip if `V[x] = V[y]` (R96). -/
def execSeReg (x y : Nibble) (s : State) : Result := .next (s.skipIf (decide (s.reg x = s.reg y)))

/-- `9xy0`: skip if `V[x] ≠ V[y]` (R97). -/
def execSneReg (x y : Nibble) (s : State) : Result := .next (s.skipIf (decide (s.reg x ≠ s.reg y)))

end Sys2Proof.Machine
end

