-- ==== Sys2Proof/Machine/Flags.lean ====
section
/-! DEFINITION. Every value an instruction writes to VF as a flag (the table of spec/10_state.md R21). -/

namespace Sys2Proof.Machine

/-- A flag as the byte VF holds: 1 or 0. -/
def flagByte (c : Bool) : Byte := if c then 1 else 0

/-- `8xy4`: 1 if the 8-bit sum overflowed (spec/41_load_arith.md R108). -/
def carryFlag (a b : Byte) : Byte := flagByte (decide (255 < a.toNat + b.toNat))

/-- `8xy5` with `a = V[x]`, `b = V[y]`, and `8xy7` the other way round: 1 if `a ≥ b`, that is no borrow (R109, R111). -/
def noBorrowFlag (a b : Byte) : Byte := flagByte (decide (b.toNat ≤ a.toNat))

/-- `8xy6`: bit 0 of the source, the bit shifted out (R110). -/
def shrFlag (w : Byte) : Byte := flagByte (w.getLsbD 0)

/-- `8xyE`: bit 7 of the source, the bit shifted out (R112). -/
def shlFlag (w : Byte) : Byte := flagByte (w.getLsbD 7)

/-- `Dxyn`: 1 if any pixel went from set to unset (spec/43_display.md R131). -/
def collisionFlag (c : Bool) : Byte := flagByte c

end Sys2Proof.Machine
end

