-- ==== Sys2Proof/Machine/Display.lean ====
section
/-! DEFINITION. The display plane and its two instructions (spec/43_display.md R130 to R132). -/

namespace Sys2Proof.Machine

/-- `DISP[row][col]` (spec/10_state.md R32). -/
def pixel (d : Display) (row : Fin 32) (col : Fin 64) : Bool := d[row].getLsbD col.val

/-- `00E0`: every pixel becomes 0 (R130). -/
def execCls (s : State) : Result := .next { s with disp := Vector.replicate 32 0 }.advance

/-- The pixels that one sprite byte selects on its row: its bit `7 - c` selects column `(px + c) mod 64` (R131; "screen
wraparound" is D25, log entry 20; bit 7 leftmost is G6, log entry 22). -/
def spriteMask (b : Byte) (px : Nat) : BitVec 64 :=
  (List.range 8).foldl (fun m c => if b.getLsbD (7 - c) then m ||| (1#64 <<< ((px + c) % 64)) else m) 0#64

/-- The row that row `r` of a sprite lands on, `(py + r) mod 32` (R131). -/
def spriteRow (py r : Nat) : Fin 32 := ⟨(py + r) % 32, Nat.mod_lt _ (by decide)⟩

/-- The rows of a sprite from row `r` on: each inverts the pixels it selects, and a selected pixel that was set is a
collision (R131). A row at a time: no pixel of a row is touched twice (R131 (c)). -/
def drawRows (px py : Nat) : Nat → List Byte → Display × Bool → Display × Bool
  | _, [], acc => acc
  | r, b :: bs, (d, coll) =>
    let row := spriteRow py r
    let mask := spriteMask b px
    drawRows px py (r + 1) bs (d.set row.val (d[row] ^^^ mask) row.isLt, coll || decide (d[row] &&& mask ≠ 0#64))

/-- The display after drawing the sprite bytes `bs` with its first row and column at `(py, px)`, and whether some pixel
went from set to unset. -/
def draw (px py : Nat) (bs : List Byte) (d : Display) : Display × Bool := drawRows px py 0 bs (d, false)

/-- The first column of a draw, `V[x] mod 64` (R131). -/
def drawCol (x : Nibble) (s : State) : Nat := (s.reg x).toNat % 64

/-- The first row of a draw, `V[y] mod 32` (R131). -/
def drawRow (y : Nibble) (s : State) : Nat := (s.reg y).toNat % 32

/-- `Dxyn`: the `n` bytes at `I` drawn at column `V[x] mod 64`, row `V[y] mod 32`; VF is the collision flag, written last
(R131; D7, log entry 11). With `n = 0` nothing is read or drawn and VF becomes 0 (D22, log entry 20). -/
def execDrw (x y n : Nibble) (s : State) : Result :=
  if outOfRange s.i.toNat n.toNat then raise .addressOutOfRange s
  else
    let r := draw (drawCol x s) (drawRow y s) (s.readBytes s.i.toNat n.toNat) s.disp
    .next ({ s with disp := r.1 }.setReg State.vf (collisionFlag r.2)).advance

end Sys2Proof.Machine
end

