-- ==== Sys2Proof/Machine/IndexMemory.lean ====
section
/-! DEFINITION. Index and memory instructions (spec/42_index_memory.md R120 to R127). The range test covers every byte and
comes before the first write (R122). -/

namespace Sys2Proof.Machine

/-- `Annn`: `I <- nnn` (R120). -/
def execLdI (nnn : Addr) (s : State) : Result := .next (s.setI (addr16 nnn)).advance

/-- `Bnnn`: `PC <- nnn + offset`, a 16-bit sum that is not masked; a target above 0xFFE faults at the next fetch (R121). -/
def execJpOff (nnn : Addr) (s : State) : Result := .next (s.setPc (addr16 nnn + jumpOffset nnn s))

/-- `Fx1E`: `I <- (I + V[x]) & 0x0FFF`, no flag (R127). Whether the word is an instruction at all is the decoder's concern
(R73: decoding is a function of the word and of the strap `X_FX1E`). -/
def execAddIVx (x : Nibble) (s : State) : Result := .next (s.setI (s.i + (s.reg x).zeroExtend 16)).advance

/-- `Fx29`: `I <- FONT_BASE + 5 * V[x][3:0]` (R123). -/
def execLdF (x : Nibble) (s : State) : Result := .next (s.setI (glyphAddr s.straps (lowNibble x s))).advance

/-- `Fx33`: the decimal digits of `V[x]` to `I`, `I + 1`, `I + 2` (R124). -/
def execLdB (x : Nibble) (s : State) : Result :=
  if outOfRange s.i.toNat 3 then raise .addressOutOfRange s
  else .next (s.writeBytes s.i.toNat (bcdDigits (s.reg x))).advance

/-- `Fx55`: `V[0]` to `V[x]` to memory at `I`, then `I` by the strap `MEM_I_INC` (R125). -/
def execStoreRegs (x : Nibble) (s : State) : Result :=
  if outOfRange s.i.toNat (x.toNat + 1) then raise .addressOutOfRange s
  else .next (setBlockIndex x (s.writeBytes s.i.toNat (regsUpTo x s))).advance

/-- `V[0]` to `V[x]` loaded from memory at `I`; the registers above `x` keep their values (R126). -/
def loadUpTo (x : Nibble) (s : State) : State :=
  { s with v := Vector.ofFn fun j : Fin 16 => if j.val ≤ x.toNat then s.readByte (s.i.toNat + j.val) else s.v[j] }

/-- `Fx65`: `V[0]` to `V[x]` from memory at `I`, then `I` by the strap `MEM_I_INC` (R126). -/
def execLoadRegs (x : Nibble) (s : State) : Result :=
  if outOfRange s.i.toNat (x.toNat + 1) then raise .addressOutOfRange s
  else .next (setBlockIndex x (loadUpTo x s)).advance

end Sys2Proof.Machine
end

