-- ==== Sys2Proof/Machine/Input.lean ====
section
/-! DEFINITION. The key instructions and the completion of a key wait (spec/45_input.md R140 to R143). -/

namespace Sys2Proof.Machine

/-- `Ex9E`: skip if key `V[x][3:0]` is pressed (R141). -/
def execSkp (x : Nibble) (s : State) : Result := .next (s.skipIf (keyDown (lowNibble x s) s))

/-- `ExA1`: skip if key `V[x][3:0]` is not pressed (R142). -/
def execSknp (x : Nibble) (s : State) : Result := .next (s.skipIf (!keyDown (lowNibble x s) s))

/-- `Fx0A`, its first step: `RUN <- AwaitingKey(x)`, `PC` stays at the instruction (R143). -/
def execLdVxK (x : Nibble) (s : State) : Result := .next { s with run := .awaitingKey x }

/-- `Fx0A`, its last step, from `KeyReady(x, k)`: `V[x] <- k`, `PC <- PC + 2`, `RUN <- Running` (R143;
spec/10_state.md R36). -/
def completeKeyWait (x k : Nibble) (s : State) : State := { (s.setReg x (k.zeroExtend 8)).advance with run := .running }

end Sys2Proof.Machine
end

