-- ==== Sys2Proof/Machine/LoadArith.lean ====
section
/-! DEFINITION. Loads, arithmetic, logic and shifts (spec/41_load_arith.md R100 to R113). All operands are read from the
state before the step, then the result is written, then the flag (R100). -/

namespace Sys2Proof.Machine

/-- `6xkk`: `V[x] <- kk` (R101). -/
def execLdImm (x : Nibble) (kk : Byte) (s : State) : Result := .next (s.setReg x kk).advance

/-- `7xkk`: `V[x] <- (V[x] + kk) mod 256`, no flag (R102). -/
def execAddImm (x : Nibble) (kk : Byte) (s : State) : Result := .next (s.setReg x (s.reg x + kk)).advance

/-- `8xy0`: `V[x] <- V[y]` (R104). -/
def execLdReg (x y : Nibble) (s : State) : Result := .next (s.setReg x (s.reg y)).advance

/-- `8xy1`: `V[x] <- V[x] | V[y]`, VF left unchanged (R105; D8, log entry 12). -/
def execOrReg (x y : Nibble) (s : State) : Result := .next (s.setReg x (s.reg x ||| s.reg y)).advance

/-- `8xy2`: `V[x] <- V[x] & V[y]`, no flag (R106). -/
def execAndReg (x y : Nibble) (s : State) : Result := .next (s.setReg x (s.reg x &&& s.reg y)).advance

/-- `8xy3`: `V[x] <- V[x] ^ V[y]`, no flag (R107). -/
def execXorReg (x y : Nibble) (s : State) : Result := .next (s.setReg x (s.reg x ^^^ s.reg y)).advance

/-- `8xy4`: the sum modulo 256, then VF is the carry out (R108). -/
def execAddReg (x y : Nibble) (s : State) : Result :=
  .next (s.setRegFlag x (s.reg x + s.reg y) (carryFlag (s.reg x) (s.reg y))).advance

/-- `8xy5`: `V[x] - V[y]` modulo 256, then VF is 1 when `V[x] ≥ V[y]` (R109). -/
def execSubReg (x y : Nibble) (s : State) : Result :=
  .next (s.setRegFlag x (s.reg x - s.reg y) (noBorrowFlag (s.reg x) (s.reg y))).advance

/-- `8xy7`: `V[y] - V[x]` modulo 256, then VF is 1 when `V[y] ≥ V[x]` (R111). -/
def execSubnReg (x y : Nibble) (s : State) : Result :=
  .next (s.setRegFlag x (s.reg y - s.reg x) (noBorrowFlag (s.reg y) (s.reg x))).advance

/-- `8xy6`: the strap-selected source shifted right by one, then VF is its bit 0 (R110). -/
def execShr (x y : Nibble) (s : State) : Result :=
  .next (s.setRegFlag x (shiftOperand x y s >>> 1) (shrFlag (shiftOperand x y s))).advance

/-- `8xyE`: the strap-selected source shifted left by one modulo 256, then VF is its bit 7 (R112). -/
def execShl (x y : Nibble) (s : State) : Result :=
  .next (s.setRegFlag x (shiftOperand x y s <<< 1) (shlFlag (shiftOperand x y s))).advance

end Sys2Proof.Machine
end

