-- ==== Sys2Proof/Machine/Random.lean ====
section
/-! DEFINITION. The random instruction (spec/44_random.md R135). -/

namespace Sys2Proof.Machine

/-- `Cxkk` for a given random byte: `V[x] <- rnd & kk` (R135). -/
def rndWith (rnd : Byte) (x : Nibble) (kk : Byte) (s : State) : State := (s.setReg x (rnd &&& kk)).advance

/-- `Cxkk`: the random byte is a free value, a new one at each use (spec/10_state.md R37; D24, log entry 2). -/
def execRnd (x : Nibble) (kk : Byte) (s : State) : Result :=
  .next { rndWith (Config.rnd s.draws) x kk s with draws := s.draws + 1 }

end Sys2Proof.Machine
end

