-- ==== Sys2Proof/Machine/Timers.lean ====
section
/-! DEFINITION. The timer instructions (spec/46_timers.md R147 to R149). The decrement is an event (Machine/Events.lean). -/

namespace Sys2Proof.Machine

/-- `Fx07`: `V[x] <- DT` (R147). -/
def execLdVxDt (x : Nibble) (s : State) : Result := .next (s.setReg x s.dt).advance

/-- `Fx15`: `DT <- V[x]` (R148). -/
def execLdDtVx (x : Nibble) (s : State) : Result := .next { s with dt := s.reg x }.advance

/-- `Fx18`: `ST <- V[x]`, no sound (R149; spec/90_conflicts.md C1, D15, log entry 17). -/
def execLdStVx (x : Nibble) (s : State) : Result := .next { s with st := s.reg x }.advance

end Sys2Proof.Machine
end

