-- ==== Sys2Proof/Machine/Events.lean ====
section
/-! DEFINITION. The five events (spec/00_scope.md R7): `Step` with its fetch (spec/10_state.md R36), `Tick60`
(spec/60_exceptions.md R165), `KeyUpdate` (spec/45_input.md R144), `ReadDisplay` (spec/43_display.md R133) and `Reset`
(spec/70_reset_and_hazards.md R180 to R183); the status port (spec/60_exceptions.md R150, R168); a run over a list of
events. -/

namespace Sys2Proof.Machine

/-- The word at `PC`: the byte at the lower address is the more significant one (spec/20_memory.md R50). -/
def fetchWord (s : State) : Half := wordOfBytes (s.readByte s.pc.toNat) (s.readByte (s.pc.toNat + 1))

/-- Steps 1 to 5 of R36, in a running machine: the range test of the fetch, the two bytes, decoding under the strap
`X_FX1E`, the instruction. The faults are found in the order of spec/60_exceptions.md R158. -/
def fetchExecute (s : State) : Result :=
  if outOfRange s.pc.toNat 2 then raise .addressOutOfRange s
  else
    match decode s.straps.xFx1e (fetchWord s) with
    | .error (.invalidOpcode _) => raise .invalidOpcode s
    | .ok i => exec i s

/-- The event `Step` (R36), by the value of `RUN`. A step of a halted machine has no effect (R157; log entry 6), nor has
one of a machine that waits for a key. -/
def stepEvent (s : State) : Result :=
  match s.run with
  | .halted _ => .next s
  | .awaitingKey _ => .next s
  | .keyReady x k => .next (completeKeyWait x k s)
  | .running => fetchExecute s

/-- One timer's decrement: "if counter > 0, counter -= 1; otherwise remains 0" (R165). -/
def decrement (b : Byte) : Byte := if b = 0 then 0 else b - 1

/-- The event `Tick60`: both timers, in every run state (R165; D26, log entry 21). -/
def tick60 (s : State) : State := { s with dt := decrement s.dt, st := decrement s.st }

/-- The keys pressed in `k` and not pressed in the latch (R144). -/
def newlyPressed (k keys : Half) : Half := k &&& ~~~keys

/-- The lowest-numbered pressed key, if any is pressed (R144 `min`; D11, log entry 15). -/
def lowestKey (k : Half) : Option Nibble :=
  ((List.range 16).find? fun j => k.getLsbD j).map fun j => BitVec.ofNat 4 j

/-- The event `KeyUpdate(k)`: the latch is replaced, and a waiting `Fx0A` is handed the lowest newly pressed key (R144). -/
def keyUpdate (k : Half) (s : State) : State :=
  match s.run, lowestKey (newlyPressed k s.keys) with
  | .awaitingKey x, some j => { s with keys := k, run := .keyReady x j }
  | _, _ => { s with keys := k }

/-- What `ReadDisplay` returns: the grid as it stands (R133). -/
def readDisplay (s : State) : Fin 32 → Fin 64 → Bool := pixel s.disp

/-- The bytes an oversize image leaves from 0x200 to 0xFFF: any value (R183; C2, D16, log entry 10). -/
def oversizeBytes (draws : Nat) : List Byte :=
  (List.range Config.imageMax).map fun j => Config.oversizeByte draws (Config.entry + j)

/-- The event `Reset(image, straps)` (R180): the reset table of spec/10_state.md R38, the image copied verbatim to 0x200
upward (R181), the font in place through `resetByte` (R182), and `Halted(ImageTooLarge)` for an image over 3584 bytes
(R183). The free-value counter and the pending events are not the hardware's: the caller gives them (log entry 28). -/
def resetWith (image : List Byte) (q : Straps) (draws : Nat) (pending : List Event) : State :=
  if image.length ≤ Config.imageMax then
    { State.resetBase q with mem := Memory.writeBytes q [] Config.entry image, draws := draws, pending := pending }
  else
    { State.resetBase q with
      mem := Memory.writeBytes q [] Config.entry (oversizeBytes draws)
      run := .halted .imageTooLarge
      draws := draws + 1
      pending := pending }

/-- One event (spec/00_scope.md R7). -/
def handle (e : Event) (s : State) : Result :=
  match e with
  | .step => stepEvent s
  | .tick60 => .next (tick60 s)
  | .keyUpdate k => .next (keyUpdate k s)
  | .readDisplay => .next s
  | .reset image q => .next (resetWith image q s.draws s.pending)

/-- A run over a list of events, in order: any list is a legal interleaving (spec/60_exceptions.md R166). -/
def runEvents : List Event → State → Result
  | [], s => .next s
  | e :: es, s =>
    match handle e s with
    | .next t => runEvents es t
    | .fault k => .fault k
    | .refused r => .refused r

/-- The next event: the first pending one, which is then pending no more, or a `Step` when none is pending (log entry 1). -/
def nextEvent (s : State) : Result :=
  match s.pending with
  | [] => handle .step s
  | e :: es => handle e { s with pending := es }

/-- The number of a fault kind (R150). -/
def Fault.code : Fault → Nat
  | .invalidOpcode => 1
  | .stackOverflow => 2
  | .stackUnderflow => 3
  | .addressOutOfRange => 4
  | .imageTooLarge => 5

/-- The fault-kind output of the status port: 0 when the machine is not halted (R150, R168). -/
def faultCode (s : State) : Nat :=
  match s.run with
  | .halted k => k.code
  | .running | .awaitingKey _ | .keyReady _ _ => 0

/-- The halted output of the status port (R168). -/
def haltedFlag (s : State) : Bool :=
  match s.run with
  | .halted _ => true
  | .running | .awaitingKey _ | .keyReady _ _ => false

end Sys2Proof.Machine
end

