-- ==== Sys2Proof/Machine/Step.lean ====
section
/-! DEFINITION. One step of the machine, and the placing of a word of the opcode table where the next step fetches. -/

namespace Sys2Proof.Machine

/-- One step: the next event (Machine/Events.lean). -/
def step (s : State) : Host.Outcome State Fault Refusal := nextEvent s

/-- The strap `X_FX1E` is what fetching the word of `Fx1E` takes (spec/42_index_memory.md R127; log entry 23); every other
word leaves the straps as they are. -/
def strapsForWord (q : Straps) (ins : Half) : Straps :=
  match decode true ins with
  | .ok i => if i.wf q then q else { q with xFx1e := true }
  | .error _ => q

/-- `s` with an instruction of the opcode table stored where the next step fetches: at `PC`, or at 0x200 where `PC` is
beyond the last address an instruction can be fetched from; running; and with a `Step` as the next event. It stands for a
program loaded from outside (log entry 24). -/
def State.withFetchWord (s : State) (nbits w : Nat) : State :=
  let ins := tableWord nbits w
  let pc : Half := if outOfRange s.pc.toNat 2 then BitVec.ofNat 16 Config.entry else s.pc
  { s.writeBytes pc.toNat [hiByte ins, loByte ins] with
    pc := pc
    run := .running
    straps := strapsForWord s.straps ins
    pending := match s.pending with | [] => [] | e :: es => .step :: e :: es }

end Sys2Proof.Machine
end

