-- ==== Sys2Proof/Safety.lean ====
section
/-! DEFINITION. What claims about runs are stated in: the invariant of reachable states (spec/10_state.md R39), the ends a
run can come to (spec/70_reset_and_hazards.md R189, spec/60_exceptions.md R157, R171), schedules and their fairness
(spec/60_exceptions.md R166). -/

namespace Sys2Proof.Machine

/-- The machine is halted with some fault kind: never a successful end (spec/60_exceptions.md R157). -/
def State.Halted (s : State) : Prop := haltedFlag s = true

/-- The machine holds in a key wait: a hang if no key comes, not a fault and not an end (spec/45_input.md R143 (c)). -/
def State.Waiting (s : State) : Prop := ∃ x, s.run = .awaitingKey x

/-- The run has settled: running, and the word at `PC` is a jump to `PC` (R189; the spec's decision D27, log entry 31). -/
def State.Settled (s : State) : Prop :=
  s.run = .running ∧ outOfRange s.pc.toNat 2 = false ∧ ∃ nnn, fetchWord s = encode (.jp nnn) ∧ s.pc = addr16 nnn

/-- In a key wait `PC` is the address of the `Fx0A` that waits for register `x` (spec/10_state.md R35). -/
def State.WaitsAtFx0A (s : State) (x : Nibble) : Prop :=
  outOfRange s.pc.toNat 2 = false ∧ fetchWord s = encode (.ldVxK x)

/-- The invariant of every reachable state (R39), with the canonical form of memory and R35's clause on `PC`. That
`SP ≤ 16` and that `I`, `PC` and the entries are 16 bits are in the types. -/
structure State.Inv (s : State) : Prop where
  /-- `0 ≤ I ≤ 0x0FFF` (R22). -/
  index : s.i.toNat ≤ 0x0FFF
  /-- `0 ≤ PC ≤ 0x1FFE` (R23). -/
  counter : s.pc.toNat ≤ 0x1FFE
  /-- Every entry in use is an `npc` of a fetched `2nnn`: between 0x0002 and 0x1000. -/
  entries : ∀ j : Fin 16, j.val < s.sp.val → 0x0002 ≤ (s.stack[j]).toNat ∧ (s.stack[j]).toNat ≤ 0x1000
  /-- Memory is in its canonical form. -/
  memory : Memory.wf s.straps s.mem = true
  /-- A waiting or key-ready machine stands at its `Fx0A` (R35). -/
  waiting : ∀ x, (s.run = .awaitingKey x ∨ ∃ k, s.run = .keyReady x k) → s.WaitsAtFx0A x

/-- A schedule: the events of an endless run, in order (R166: any interleaving is legal). -/
abbrev Schedule := Nat → Event

/-- The first `n` events of a schedule. -/
def Schedule.first (f : Schedule) (n : Nat) : List Event := (List.range n).map f

/-- "The only liveness the Clock Driver owes": each of `Step` and `Tick60` goes on for ever (R166; D18). -/
def Schedule.Fair (f : Schedule) : Prop := ∀ n, (∃ m, n ≤ m ∧ f m = .step) ∧ ∃ m, n ≤ m ∧ f m = .tick60

/-- The events of the list leave the machine to itself: none of them is a `Reset`. -/
def noReset (es : List Event) : Prop := ∀ image q, Event.reset image q ∉ es

/-- A safe run over the events `es` from `s`: after no prefix of them is the machine halted. -/
def SafeRun (es : List Event) (s : State) : Prop :=
  ∀ n t, runEvents (es.take n) s = .next t → ¬ t.Halted

end Sys2Proof.Machine
end

