-- ==== Sys2Proof/Certificates/Slice0/Obligations.lean ====
section
/-! DEFINITION. The statements for the provers, each a `def Obligations.<Name> : Prop`, and the words they are stated in:
the parts of the state and the frame over them, the opcode table as rows, the pixels of a draw. A statement that rests on
a decision of the spec (a row D of spec/92_eei_decisions.md or G of spec/93_implementation_defined.md), or on a choice of
the model, names the log entry in its docstring. -/

namespace Sys2Proof.Spec

open Sys2Proof.Machine

/-! ### The parts of the state and the frame -/

/-- The parts of the state other than `PC`, of which every statement speaks by itself. -/
inductive Part where
  | regs
  | index
  | stack
  | delay
  | sound
  | memory
  | display
  | keys
  | run
  | straps
  | draws
  | pending
  deriving DecidableEq, Repr

/-- One part is the same in two states: every register, every byte of memory at every address, every pixel. -/
def Same (p : Part) (s t : State) : Prop :=
  match p with
  | .regs => ∀ r, t.reg r = s.reg r
  | .index => t.i = s.i
  | .stack => t.sp = s.sp ∧ t.stack = s.stack
  | .delay => t.dt = s.dt
  | .sound => t.st = s.st
  | .memory => ∀ a, t.readByte a = s.readByte a
  | .display => ∀ row col, pixel t.disp row col = pixel s.disp row col
  | .keys => t.keys = s.keys
  | .run => t.run = s.run
  | .straps => t.straps = s.straps
  | .draws => t.draws = s.draws
  | .pending => t.pending = s.pending

/-- The frame: every part but the listed ones is the same. -/
def OnlyChanges (ps : List Part) (s t : State) : Prop := ∀ p, p ∉ ps → Same p s t

/-- Every register but the listed ones is the same. -/
def RegsExcept (xs : List Nibble) (s t : State) : Prop := ∀ r, r ∉ xs → t.reg r = s.reg r

/-- A change of the next state of an outcome. -/
def mapNext (f : State → State) : Result → Result
  | .next t => .next (f t)
  | .fault k => .fault k
  | .refused r => .refused r

/-! ### The opcode table (spec/30_encoding.md R74) -/

/-- One row: mask, match, and whether it is there only when `X_FX1E = 1`. -/
structure Row where
  mask : Half
  pat : Half
  ext : Bool

/-- The row selects the word: `ins & mask = match` (R74), under the strap where the row needs it. -/
def Row.selects (fx1e : Bool) (r : Row) (ins : Half) : Prop := ins &&& r.mask = r.pat ∧ (r.ext = true → fx1e = true)

/-- The 34 rows, in the order of R74. -/
def rows : List Row :=
  [⟨0xFFFF, 0x00E0, false⟩, ⟨0xFFFF, 0x00EE, false⟩, ⟨0xF000, 0x1000, false⟩, ⟨0xF000, 0x2000, false⟩,
   ⟨0xF000, 0x3000, false⟩, ⟨0xF000, 0x4000, false⟩, ⟨0xF00F, 0x5000, false⟩, ⟨0xF000, 0x6000, false⟩,
   ⟨0xF000, 0x7000, false⟩] ++
  [⟨0xF00F, 0x8000, false⟩, ⟨0xF00F, 0x8001, false⟩, ⟨0xF00F, 0x8002, false⟩, ⟨0xF00F, 0x8003, false⟩,
   ⟨0xF00F, 0x8004, false⟩, ⟨0xF00F, 0x8005, false⟩, ⟨0xF00F, 0x8006, false⟩, ⟨0xF00F, 0x8007, false⟩,
   ⟨0xF00F, 0x800E, false⟩, ⟨0xF00F, 0x9000, false⟩] ++
  [⟨0xF000, 0xA000, false⟩, ⟨0xF000, 0xB000, false⟩, ⟨0xF000, 0xC000, false⟩, ⟨0xF000, 0xD000, false⟩,
   ⟨0xF0FF, 0xE09E, false⟩, ⟨0xF0FF, 0xE0A1, false⟩] ++
  [⟨0xF0FF, 0xF007, false⟩, ⟨0xF0FF, 0xF00A, false⟩, ⟨0xF0FF, 0xF015, false⟩, ⟨0xF0FF, 0xF018, false⟩,
   ⟨0xF0FF, 0xF029, false⟩, ⟨0xF0FF, 0xF033, false⟩, ⟨0xF0FF, 0xF055, false⟩, ⟨0xF0FF, 0xF065, false⟩,
   ⟨0xF0FF, 0xF01E, true⟩]

/-- Some row selects the word. -/
def Valid (fx1e : Bool) (ins : Half) : Prop := ∃ r ∈ rows, r.selects fx1e ins

/-- Every word that the row `(mask, pat)` selects decodes, whatever the strap, to the instruction that `mk` reads from it. -/
def Decodes (mask pat : Half) (mk : Half → Instr) : Prop :=
  ∀ fx1e ins, ins &&& mask = pat → decode fx1e ins = .ok (mk ins)

/-- `x = ins[11:8]` (spec/00_scope.md R9). -/
abbrev xOf (ins : Half) : Nibble := ins.extractLsb' 8 4

/-- `kk = ins[7:0]`. -/
abbrev kkOf (ins : Half) : Byte := ins.extractLsb' 0 8

/-- `nnn = ins[11:0]`. -/
abbrev nnnOf (ins : Half) : Addr := ins.extractLsb' 0 12

/-- Words written out from the patterns of R74, one at least of each family, with the instruction each stands for. -/
def sampleWords : List (Half × Instr) :=
  [(0b0000000011100000, .cls), (0b0000000011101110, .ret), (0b0001001000110100, .jp 0x234),
   (0b0010101010111100, .call 0xABC), (0b0011001100101010, .seImm 3 0x2A), (0b0101000100100000, .seReg 1 2),
   (0b0110000000000101, .ldImm 0 5), (0b1000000000010100, .addReg 0 1), (0b1000001000111110, .shl 2 3),
   (0b1010001011110000, .ldI 0x2F0), (0b1011001100000000, .jpOff 0x300), (0b1100001100001111, .rnd 3 0x0F),
   (0b1101000000010001, .drw 0 1 1), (0b1110001010011110, .skp 2), (0b1111001100001010, .ldVxK 3),
   (0b1111010000000111, .ldVxDt 4), (0b1111010100110011, .ldB 5), (0b1111001001010101, .storeRegs 2)]

/-- Words that no row selects, from spec/95_test_vectors.md TI1 to TI19. -/
def invalidWords : List Half :=
  [0x0000, 0x0123, 0x00E1, 0x5121, 0x8008, 0x800F, 0x9001, 0xE000, 0xE09F, 0xE1A0, 0xF000, 0xF01E, 0xF075, 0xFFFF]

/-! ### What the rules say each instruction writes -/

/-- The parts a rule lets an instruction write, beside `PC` and the run state (spec/10_state.md R20 to R34). -/
def writes (q : Straps) (i : Instr) : List Part :=
  match i with
  | .jp _ | .seImm _ _ | .sneImm _ _ | .seReg _ _ | .sneReg _ _ | .jpOff _ | .skp _ | .sknp _ | .ldVxK _ => []
  | .call _ | .ret => [.stack]
  | .ldImm _ _ | .addImm _ _ | .ldReg _ _ | .orReg _ _ | .andReg _ _ | .xorReg _ _ => [.regs]
  | .addReg _ _ | .subReg _ _ | .shr _ _ | .subnReg _ _ | .shl _ _ | .ldVxDt _ => [.regs]
  | .ldI _ | .addIVx _ | .ldF _ => [.index]
  | .rnd _ _ => [.regs, .draws]
  | .drw _ _ _ => [.regs, .display]
  | .cls => [.display]
  | .ldDtVx _ => [.delay]
  | .ldStVx _ => [.sound]
  | .ldB _ => [.memory]
  | .storeRegs _ => if q.memIInc = .none then [.memory] else [.memory, .index]
  | .loadRegs _ => if q.memIInc = .none then [.regs] else [.regs, .index]

/-- The registers a rule lets an instruction write in its own step, as destination or as flag (spec/10_state.md R20, R21). -/
def writesReg (i : Instr) (r : Nibble) : Prop :=
  match i with
  | .ldImm x _ | .addImm x _ | .ldReg x _ | .orReg x _ | .andReg x _ | .xorReg x _ | .rnd x _ | .ldVxDt x => r = x
  | .addReg x _ | .subReg x _ | .shr x _ | .subnReg x _ | .shl x _ => r = x ∨ r = 15
  | .drw _ _ _ => r = 15
  | .loadRegs x => r.toNat ≤ x.toNat
  | .jp _ | .call _ | .ret | .seImm _ _ | .sneImm _ _ | .seReg _ _ | .sneReg _ _ | .ldI _ | .jpOff _ | .cls => False
  | .skp _ | .sknp _ | .ldVxK _ | .ldDtVx _ | .ldStVx _ | .addIVx _ | .ldF _ | .ldB _ | .storeRegs _ => False

/-- The instructions whose rule writes a target to `PC` (spec/10_state.md R23). -/
def isJump : Instr → Bool
  | .jp _ | .call _ | .ret | .jpOff _ => true
  | .cls | .seImm _ _ | .sneImm _ _ | .seReg _ _ | .ldImm _ _ | .addImm _ _ | .ldReg _ _ | .orReg _ _ => false
  | .andReg _ _ | .xorReg _ _ | .addReg _ _ | .subReg _ _ | .shr _ _ | .subnReg _ _ | .shl _ _ | .sneReg _ _ => false
  | .ldI _ | .rnd _ _ | .drw _ _ _ | .skp _ | .sknp _ | .ldVxDt _ | .ldVxK _ | .ldDtVx _ | .ldStVx _ => false
  | .addIVx _ | .ldF _ | .ldB _ | .storeRegs _ | .loadRegs _ => false

/-- The conditional skips (spec/10_state.md R23). -/
def isSkip : Instr → Bool
  | .seImm _ _ | .sneImm _ _ | .seReg _ _ | .sneReg _ _ | .skp _ | .sknp _ => true
  | .cls | .ret | .jp _ | .call _ | .ldImm _ _ | .addImm _ _ | .ldReg _ _ | .orReg _ _ | .andReg _ _ => false
  | .xorReg _ _ | .addReg _ _ | .subReg _ _ | .shr _ _ | .subnReg _ _ | .shl _ _ | .ldI _ | .jpOff _ => false
  | .rnd _ _ | .drw _ _ _ | .ldVxDt _ | .ldVxK _ | .ldDtVx _ | .ldStVx _ | .addIVx _ | .ldF _ => false
  | .ldB _ | .storeRegs _ | .loadRegs _ => false

/-! ### What the straps select, over values -/

/-- The value `8xy6` and `8xyE` shift, of `V[x]` and `V[y]`, by `SHIFT_SOURCE` (spec/41_load_arith.md R110). -/
def shiftedValue (q : ShiftSource) (vx vy : Byte) : Byte :=
  match q with
  | .vx => vx
  | .vy => vy

/-- The offset of `Bnnn`, of `V[0]`, `V[ins[11:8]]` and `I`, by `BNNN_OFFSET` (spec/42_index_memory.md R121). -/
def strapOffset (q : BnnnOffset) (v0 vx i : Nat) : Nat :=
  match q with
  | .v0 => v0
  | .vx => vx
  | .i => i

/-- `I` after a block transfer up to register `x`, by `MEM_I_INC`, cut to twelve bits where it is written
(spec/42_index_memory.md R125). -/
def indexAfter (q : MemIInc) (i x : Nat) : Nat :=
  match q with
  | .none => i
  | .x => (i + x) % 4096
  | .xPlus1 => (i + x + 1) % 4096

/-! ### The pixels of a draw (spec/43_display.md R131) -/

/-- A set sprite bit lands on the pixel: bit `7 - c` of byte `r`, at row `(py + r) mod 32`, column `(px + c) mod 64`. -/
def Target (px py n : Nat) (byte : Nat → Byte) (row : Fin 32) (col : Fin 64) : Prop :=
  ∃ r, r < n ∧ ∃ c, c < 8 ∧ (byte r).getLsbD (7 - c) = true ∧ (py + r) % 32 = row.val ∧ (px + c) % 64 = col.val

/-- A display as a function of its coordinates, and the collision found so far. -/
abbrev Grid := (Fin 32 → Fin 64 → Bool) × Bool

/-- The body of the inner loop of R131, for row `r` and bit `7 - c` of the sprite byte `b`. -/
def pixelBody (px py r : Nat) (b : Byte) (g : Grid) (c : Nat) : Grid :=
  if b.getLsbD (7 - c) then
    let row : Fin 32 := ⟨(py + r) % 32, Nat.mod_lt _ (by decide)⟩
    let col : Fin 64 := ⟨(px + c) % 64, Nat.mod_lt _ (by decide)⟩
    (fun i j => if i = row ∧ j = col then !g.1 i j else g.1 i j, g.2 || g.1 row col)
  else g

/-- The two loops of R131, pixel by pixel: rows outside, columns inside, with no collision at the start. -/
def pixelLoop (px py n : Nat) (byte : Nat → Byte) (d : Fin 32 → Fin 64 → Bool) : Grid :=
  (List.range n).foldl (fun g r => (List.range 8).foldl (pixelBody px py r (byte r)) g) (d, false)

/-- Two states that differ at most in the stack entries not in use. -/
def AgreeBelowSp (s t : State) : Prop :=
  t = { s with stack := t.stack } ∧ ∀ j : Fin 16, j.val < s.sp.val → t.stack[j] = s.stack[j]

end Sys2Proof.Spec

open Sys2Proof Sys2Proof.Machine Sys2Proof.Spec

/-! ### Encoding -/

/-- Words written out from the patterns of spec/30_encoding.md R74 decode to the instructions they stand for, and words of
spec/95_test_vectors.md TI1 to TI19 do not decode. The pattern of `Fx07` is G1 (log entry 22), that 0x5121 and 0x9001 are
invalid is D9 (log entry 13), 0xF01E by the strap is D5 (log entry 23). -/
def Obligations.WordsFromThePatternsDecode : Prop :=
  (∀ p ∈ sampleWords, ∀ fx1e, decode fx1e p.1 = .ok p.2) ∧
  (∀ w ∈ invalidWords, decode false w = .error (.invalidOpcode w)) ∧ decode true 0xF01E = .ok (.addIVx 0)

/-- Decoding the word of an instruction gives it back, for every instruction the straps have and every value of its
operands; an instruction the straps do not have is refused (R72, R74, R77; `Fx1E` by the strap is D5, log entry 23). -/
def Obligations.DecodeOfEncodeGivesTheInstruction : Prop :=
  ∀ (q : Straps) (i : Instr),
    (i.wf q = true → decode q.xFx1e (encode i) = .ok i) ∧
    (i.wf q = false → decode q.xFx1e (encode i) = .error (.invalidOpcode (encode i)))

/-- A word decodes exactly when a row of the opcode table selects it, at most one row does, the instruction's own word is
the word decoded, and every other word is rejected by name (R73, R74, R75; exact match is D9, log entry 13;
`Fx1E` by the strap is D5, log entry 23; the patterns the document does not print are G1, log entry 22). -/
def Obligations.DecodingFollowsTheOpcodeTable : Prop :=
  (∀ fx1e ins, Valid fx1e ins → ∃ i, decode fx1e ins = .ok i) ∧
  (∀ fx1e ins i, decode fx1e ins = .ok i → Valid fx1e ins ∧ encode i = ins) ∧
  (∀ fx1e ins, ¬ Valid fx1e ins → decode fx1e ins = .error (.invalidOpcode ins)) ∧
  rows.Pairwise fun r r' => ∀ ins, ¬ (r.selects true ins ∧ r'.selects true ins)

/-! ### The step -/

/-- A step takes the first pending event, and a `Step` when none is pending. `pending` is the model's own (log entry 1). -/
def Obligations.StepTakesTheFirstPendingEvent : Prop :=
  (∀ s : State, s.pending = [] → step s = handle .step s) ∧
  ∀ (s : State) e es, s.pending = e :: es → step s = handle e { s with pending := es }

/-- When the machine runs, `PC` is at most 0xFFE and the two bytes at `PC`, the one at `PC` more significant, decode to
`i`, a `Step` is `exec i` of the same state (spec/10_state.md R36, spec/20_memory.md R50); so is `step` when no event is
pending, or when a `Step` is the first pending event (log entry 1). -/
def Obligations.StepRunsTheDecodedInstruction : Prop :=
  ∀ (s : State) (i : Instr), s.run = .running → s.pc.toNat ≤ 0x0FFE →
    decode s.straps.xFx1e (s.readByte s.pc.toNat ++ s.readByte (s.pc.toNat + 1)) = .ok i →
    stepEvent s = exec i s ∧ (s.pending = [] → step s = exec i s) ∧
    ∀ es, s.pending = .step :: es → step s = exec i { s with pending := es }

/-- When a running machine's `Step` ends in each kind of fault, and that it ends in it in no other case
(spec/60_exceptions.md R151 to R154); a step of a machine that does not run raises nothing, and of the other events only a
`Reset` with an oversize image raises a fault, its own (R155). It rests on these choices: which words are invalid, D9 and D5
(log entries 13, 23); no masking of `PC` above 0xFFE, D21 (log entry 19); no fault of `Dxyn` with `n = 0`, D22 (log entry
20); the oversize image fatal, D16 (log entry 10); a fault, and the `Step` of a halted machine, as a next state (log entry
6). -/
def Obligations.StepFaultsExactlyAsTheTaxonomySays : Prop :=
  (∀ s t : State, s.run = .running → stepEvent s = .next t →
    let ok := s.pc.toNat ≤ 0x0FFE
    let ins : Half := s.readByte s.pc.toNat ++ s.readByte (s.pc.toNat + 1)
    let runs := fun i : Instr => ok ∧ decode s.straps.xFx1e ins = .ok i
    (t.run = .halted .invalidOpcode ↔ ok ∧ ¬ Valid s.straps.xFx1e ins) ∧
    (t.run = .halted .stackOverflow ↔ ∃ nnn, runs (.call nnn) ∧ s.sp.val = 16) ∧
    (t.run = .halted .stackUnderflow ↔ runs .ret ∧ s.sp.val = 0) ∧
    (t.run = .halted .addressOutOfRange ↔
      0x0FFE < s.pc.toNat ∨ (∃ x, runs (.ldB x) ∧ 0x0FFF < s.i.toNat + 2) ∨
      (∃ x, (runs (.storeRegs x) ∨ runs (.loadRegs x)) ∧ 0x0FFF < s.i.toNat + x.toNat) ∨
      ∃ x y n, runs (.drw x y n) ∧ 0 < n.toNat ∧ 0x0FFF < s.i.toNat + n.toNat - 1) ∧
    t.run ≠ .halted .imageTooLarge) ∧
  (∀ (s t : State) (k : Fault), s.run ≠ .running → stepEvent s = .next t → t.run = .halted k → s.run = .halted k) ∧
  ∀ (e : Event) (s t : State) (k : Fault), e ≠ .step → handle e s = .next t → t.run = .halted k →
    s.run = .halted k ∨ (k = .imageTooLarge ∧ ∃ image q, e = .reset image q ∧ 3584 < image.length)

/-- Fault entry: when a step raises a fault, every element keeps the value it had before the step, `PC` included, except
the run state (spec/60_exceptions.md R156). -/
def Obligations.FaultsArePrecise : Prop :=
  ∀ (s t : State) (k : Fault), haltedFlag s = false → stepEvent s = .next t → t.run = .halted k →
    t = { s with run := .halted k }

/-- In a halted machine a `Step` has no effect, and over any events but `Reset` the fault kind stays and nothing but `DT`,
`ST` and `KEYS` changes (spec/60_exceptions.md R157; D14, log entry 6). -/
def Obligations.HaltedMachineChangesOnlyTimersAndKeys : Prop :=
  ∀ (s t : State) (k : Fault) (es : List Event), s.run = .halted k → stepEvent s = .next s ∧
    (noReset es → runEvents es s = .next t →
      t.run = .halted k ∧ t.pc = s.pc ∧ OnlyChanges [.delay, .sound, .keys] s t)

/-- Every event, every instruction and every step answers a next state. That a fault, and the `Step` of a halted machine
(R157: not enabled), are next states is the model's reading (log entry 6), so the statement says that nothing the spec
describes is cut short, and not that every run goes on. -/
def Obligations.EveryEventAnswersANextState : Prop :=
  (∀ (i : Instr) (s : State), ∃ t, exec i s = .next t) ∧ (∀ (e : Event) (s : State), ∃ t, handle e s = .next t) ∧
  ∀ s : State, ∃ t, step s = .next t

/-- The state right after reset meets the invariant. -/
def Obligations.ResetStateMeetsTheInvariant : Prop := State.reset.Inv

/-- The invariant of spec/10_state.md R39, with the canonical form of memory and the place of a key wait (R35), is kept by
every step from every state that meets it. -/
def Obligations.EveryStepKeepsTheInvariant : Prop :=
  ∀ s t : State, s.Inv → step s = .next t → t.Inv

/-- Every state reached from a reset with any image and straps, by any events, meets the invariant (R39). -/
def Obligations.ReachableStatesMeetTheInvariant : Prop :=
  ∀ (image : List Byte) (q : Straps) (n : Nat) (pend es : List Event) (t : State),
    runEvents es (resetWith image q n pend) = .next t → t.Inv

/-! ### Reset and the status port -/

/-- The event `Reset`, in any state, halted ones included, writes the font bytes at `FONT_BASE`
(spec/70_reset_and_hazards.md R182) and copies the image verbatim to 0x200 upward (R181), neither over the other. -/
def Obligations.ResetLoadsImageAndFont : Prop :=
  ∀ (image : List Byte) (q : Straps) (s : State), image.length ≤ 3584 → ∃ t, handle (.reset image q) s = .next t ∧
    (∀ j (h : j < image.length), t.readByte (0x200 + j) = image[j]) ∧
    ∀ j : Fin 80, t.readByte (q.fontBase.val + j.val) = q.fontData[j]

/-- The event `Reset`, in any state, halted ones included (R180, spec/60_exceptions.md R159): it leaves the reset table of
spec/10_state.md R38, every element of it, and discards the previous state but for the model's own `draws` and `pending`
(log entry 28). The values 0 of V, I, KEYS, the stack entries and the rest of memory are the spec's decision D12 (log entry
7). With the empty image the first `Step` fetches an invalid word (R181 marks that sentence as the spec's own inference).
`State.reset` is the reset with the empty image under the model's choice of straps (log entries 3, 4, 5). -/
def Obligations.ResetLeavesTheResetTable : Prop :=
  (∀ (image : List Byte) (q : Straps) (s : State), image.length ≤ 3584 → ∃ t, handle (.reset image q) s = .next t ∧
    (∀ r, t.reg r = 0) ∧ t.i = 0 ∧ t.pc = 0x200#16 ∧ t.sp.val = 0 ∧ (∀ j : Fin 16, t.stack[j] = 0) ∧ t.dt = 0 ∧
    t.st = 0 ∧ (∀ row col, pixel t.disp row col = false) ∧ t.keys = 0 ∧ t.run = .running ∧ t.straps = q ∧
    (∀ a, ¬ (q.fontBase.val ≤ a ∧ a < q.fontBase.val + 80) → ¬ (0x200 ≤ a ∧ a < 0x200 + image.length) →
      t.readByte a = 0) ∧
    t.draws = s.draws ∧ t.pending = s.pending ∧
    (image = [] → stepEvent t = .next { t with run := .halted .invalidOpcode })) ∧
  (∀ (image : List Byte) (q : Straps) (s s' : State), s'.draws = s.draws → s'.pending = s.pending →
    handle (.reset image q) s' = handle (.reset image q) s) ∧
  ∀ s : State, handle (.reset [] Config.resetStraps) s =
    .next { State.reset with draws := s.draws, pending := s.pending }

/-- The event `Reset` with an image of more than 3584 bytes, in any state: the machine comes out of it halted, no `Step`
changes that state, and every element but memory from 0x200 up is as after an ordinary reset
(spec/70_reset_and_hazards.md R183; D16, log entry 10; the counter `draws` is the model's own, log entry 28). -/
def Obligations.OversizeImageHaltsAtReset : Prop :=
  ∀ (image : List Byte) (q : Straps) (s : State), 3584 < image.length →
    ∃ t ordinary, handle (.reset image q) s = .next t ∧ handle (.reset [] q) s = .next ordinary ∧
      t.run = .halted .imageTooLarge ∧ stepEvent t = .next t ∧ t.pc = ordinary.pc ∧
      OnlyChanges [.memory, .run, .draws] ordinary t ∧ ∀ a, a < 0x200 → t.readByte a = ordinary.readByte a

/-- The status port: the halted output, and the code of each fault kind (spec/60_exceptions.md R150; the numbers are D14,
log entry 29). -/
def Obligations.StatusPortReportsTheFaultKind : Prop :=
  ∀ s : State, (haltedFlag s = true ↔ ∃ k, s.run = .halted k) ∧ (faultCode s = 0 ↔ haltedFlag s = false) ∧
    (faultCode s = 1 ↔ s.run = .halted .invalidOpcode) ∧ (faultCode s = 2 ↔ s.run = .halted .stackOverflow) ∧
    (faultCode s = 3 ↔ s.run = .halted .stackUnderflow) ∧ (faultCode s = 4 ↔ s.run = .halted .addressOutOfRange) ∧
    (faultCode s = 5 ↔ s.run = .halted .imageTooLarge) ∧ faultCode s ≤ 5

/-! ### Control flow -/

/-- `1nnn` (spec/40_control_flow.md R91): `PC` is `nnn` and nothing else changes. -/
def Obligations.JumpWritesThePc : Prop :=
  Decodes 0xF000 0x1000 (fun ins => .jp (nnnOf ins)) ∧
  ∀ (nnn : Addr) (s : State), ∃ t, exec (.jp nnn) s = .next t ∧ t.pc.toNat = nnn.toNat ∧ OnlyChanges [] s t

/-- `2nnn` (R92): below sixteen entries it pushes the address after it and jumps; at sixteen it faults. -/
def Obligations.CallPushesTheReturnAddress : Prop :=
  Decodes 0xF000 0x2000 (fun ins => .call (nnnOf ins)) ∧
  ∀ (nnn : Addr) (s : State),
    (s.sp.val < 16 → ∃ t, exec (.call nnn) s = .next t ∧ t.pc.toNat = nnn.toNat ∧ t.sp.val = s.sp.val + 1 ∧
      (∀ j : Fin 16, t.stack[j] = if j.val = s.sp.val then s.pc + 2#16 else s.stack[j]) ∧ OnlyChanges [.stack] s t) ∧
    (s.sp.val = 16 → exec (.call nnn) s = .next { s with run := .halted .stackOverflow })

/-- `00EE` (R93): above no entry it pops the newest entry into `PC`; at no entry it faults. -/
def Obligations.ReturnPopsThePc : Prop :=
  decode false 0x00EE = .ok .ret ∧ decode true 0x00EE = .ok .ret ∧
  ∀ s : State,
    (∀ j : Fin 16, s.sp.val = j.val + 1 → ∃ t, exec .ret s = .next t ∧ t.pc = s.stack[j] ∧ t.sp.val = j.val ∧
      t.stack = s.stack ∧ OnlyChanges [.stack] s t) ∧
    (s.sp.val = 0 → exec .ret s = .next { s with run := .halted .stackUnderflow })

/-- A call and then a return come back to the instruction after the call, with the entries in use as they were
(spec/95_test_vectors.md S3; R92, R93). -/
def Obligations.CallThenReturnComesBack : Prop :=
  ∀ (nnn : Addr) (s : State), s.sp.val < 16 →
    ∃ t u, exec (.call nnn) s = .next t ∧ exec .ret t = .next u ∧ u.pc = s.pc + 2#16 ∧ u.sp = s.sp ∧
      (∀ j : Fin 16, j.val < s.sp.val → u.stack[j] = s.stack[j]) ∧ OnlyChanges [.stack] s u

/-- The compare skips `3xkk`, `4xkk`, `5xy0`, `9xy0` (R94 to R97): `PC` moves by 4 when the condition holds, else by 2, and
nothing else changes. Which of each pair skips on equal is G2 (log entry 22). -/
def Obligations.CompareSkipsMoveThePcOnly : Prop :=
  ∀ (x y : Nibble) (kk : Byte) (s : State),
    (∃ t, exec (.seImm x kk) s = .next t ∧ t.pc = (if s.reg x = kk then s.pc + 4#16 else s.pc + 2#16) ∧
      OnlyChanges [] s t) ∧
    (∃ t, exec (.sneImm x kk) s = .next t ∧ t.pc = (if s.reg x = kk then s.pc + 2#16 else s.pc + 4#16) ∧
      OnlyChanges [] s t) ∧
    (∃ t, exec (.seReg x y) s = .next t ∧ t.pc = (if s.reg x = s.reg y then s.pc + 4#16 else s.pc + 2#16) ∧
      OnlyChanges [] s t) ∧
    ∃ t, exec (.sneReg x y) s = .next t ∧ t.pc = (if s.reg x = s.reg y then s.pc + 2#16 else s.pc + 4#16) ∧
      OnlyChanges [] s t

/-! ### Loads and arithmetic -/

/-- `6xkk` (spec/41_load_arith.md R101), for every register, VF included. -/
def Obligations.LoadImmediateWritesTheRegister : Prop :=
  Decodes 0xF000 0x6000 (fun ins => .ldImm (xOf ins) (kkOf ins)) ∧
  ∀ (x : Nibble) (kk : Byte) (s : State), ∃ t, exec (.ldImm x kk) s = .next t ∧ t.reg x = kk ∧ RegsExcept [x] s t ∧
    t.pc = s.pc + 2#16 ∧ OnlyChanges [.regs] s t

/-- `7xkk` (R102): the sum modulo 256, for every register, and no flag: every other register, VF included, is unchanged. -/
def Obligations.AddImmediateHasNoFlagEffect : Prop :=
  Decodes 0xF000 0x7000 (fun ins => .addImm (xOf ins) (kkOf ins)) ∧
  ∀ (x : Nibble) (kk : Byte) (s : State), ∃ t, exec (.addImm x kk) s = .next t ∧
    (t.reg x).toNat = ((s.reg x).toNat + kk.toNat) % 256 ∧ RegsExcept [x] s t ∧ t.pc = s.pc + 2#16 ∧
    OnlyChanges [.regs] s t

/-- `8xy0` to `8xy3` (R104 to R107): copy, and OR, AND, XOR bit by bit; no other register changes, VF included (D8, log
entry 12; the patterns are G1, log entry 22). -/
def Obligations.CopyAndLogicWriteOneRegister : Prop :=
  ∀ (x y : Nibble) (s : State),
    let one := fun (i : Instr) (op : Bool → Bool → Bool) => ∃ t, exec i s = .next t ∧
      (∀ b, b < 8 → (t.reg x).getLsbD b = op ((s.reg x).getLsbD b) ((s.reg y).getLsbD b)) ∧
      RegsExcept [x] s t ∧ t.pc = s.pc + 2#16 ∧ OnlyChanges [.regs] s t
    one (.ldReg x y) (fun _ b => b) ∧ one (.orReg x y) or ∧ one (.andReg x y) and ∧ one (.xorReg x y) xor

/-- `8xy4` (R108): VF is the carry out, also when it is the destination, whose sum is then lost (D7, log entry 11). -/
def Obligations.AddSetsVfOnOverflow : Prop :=
  ∀ (x y : Nibble) (s : State), ∃ t, exec (.addReg x y) s = .next t ∧
    (x ≠ 15 → (t.reg x).toNat = ((s.reg x).toNat + (s.reg y).toNat) % 256) ∧
    t.reg 15 = (if 255 < (s.reg x).toNat + (s.reg y).toNat then 1 else 0) ∧
    RegsExcept [x, 15] s t ∧ t.pc = s.pc + 2#16 ∧ OnlyChanges [.regs] s t

/-- `8xy5` and `8xy7` (R109, R111): the difference modulo 256, and VF = 1 exactly when there is no borrow (D7, log entry
11, for `x = F`). -/
def Obligations.SubtractSetsVfOnNoBorrow : Prop :=
  ∀ (x y : Nibble) (s : State),
    let diff := fun (i : Instr) (a b : Byte) => ∃ t, exec i s = .next t ∧
      (x ≠ 15 → ((t.reg x).toNat : Int) = ((a.toNat : Int) - b.toNat) % 256) ∧
      t.reg 15 = (if b.toNat ≤ a.toNat then 1 else 0) ∧
      RegsExcept [x, 15] s t ∧ t.pc = s.pc + 2#16 ∧ OnlyChanges [.regs] s t
    diff (.subReg x y) (s.reg x) (s.reg y) ∧ diff (.subnReg x y) (s.reg y) (s.reg x)

/-- `8xy6` and `8xyE` (R110, R112): the source the strap selects, halved or doubled modulo 256, and VF = the bit shifted
out (straps: log entry 3; direction: log entry 22; `x = F`: log entry 11). -/
def Obligations.ShiftsCaptureTheLostBit : Prop :=
  ∀ (x y : Nibble) (s : State),
    let src : Byte := shiftedValue s.straps.shiftSource (s.reg x) (s.reg y)
    let shifted := fun (i : Instr) (result lost : Nat) => ∃ t, exec i s = .next t ∧
      (x ≠ 15 → (t.reg x).toNat = result) ∧ (t.reg 15).toNat = lost ∧
      RegsExcept [x, 15] s t ∧ t.pc = s.pc + 2#16 ∧ OnlyChanges [.regs] s t
    shifted (.shr x y) (src.toNat / 2) (src.toNat % 2) ∧ shifted (.shl x y) (src.toNat * 2 % 256) (src.toNat / 128)

/-! ### Index and memory -/

/-- `Annn` (spec/42_index_memory.md R120). -/
def Obligations.LoadIndexWritesTheIndex : Prop :=
  Decodes 0xF000 0xA000 (fun ins => .ldI (nnnOf ins)) ∧
  ∀ (nnn : Addr) (s : State), ∃ t, exec (.ldI nnn) s = .next t ∧ t.i.toNat = nnn.toNat ∧ t.pc = s.pc + 2#16 ∧
    OnlyChanges [.index] s t

/-- `Bnnn` (R121): the sum of `nnn` and the offset the strap selects, not masked; nothing but `PC` changes (the strap is
OPEN, D4, log entry 4: the statement holds for each of its values). The 16-bit sum is exact while `I` is within its
invariant, which is the premise. -/
def Obligations.IndexedJumpAddsTheStrapOffset : Prop :=
  ∀ (nnn : Addr) (s : State), s.i.toNat ≤ 0x0FFF → ∃ t, exec (.jpOff nnn) s = .next t ∧
    t.pc.toNat = nnn.toNat +
      strapOffset s.straps.bnnnOffset (s.reg 0).toNat (s.reg (BitVec.ofNat 4 (nnn.toNat / 256))).toNat s.i.toNat ∧
    OnlyChanges [] s t

/-- `Fx1E` (R127): `I + V[x]` cut to twelve bits, no flag; the word is an instruction only under the strap (D5, G5, log
entry 23). -/
def Obligations.AddToIndexWrapsAtTwelveBits : Prop :=
  (∀ ins : Half, ins &&& 0xF0FF = 0xF01E →
    decode true ins = .ok (.addIVx (xOf ins)) ∧ decode false ins = .error (.invalidOpcode ins)) ∧
  ∀ (x : Nibble) (s : State), ∃ t, exec (.addIVx x) s = .next t ∧
    t.i.toNat = (s.i.toNat + (s.reg x).toNat) % 4096 ∧ t.pc = s.pc + 2#16 ∧ OnlyChanges [.index] s t

/-- `Fx29` (R123): `I` is the address of the glyph of the low nibble (D10, log entry 14), for every font base. -/
def Obligations.FontInstructionPointsAtTheGlyph : Prop :=
  ∀ (x : Nibble) (s : State), ∃ t, exec (.ldF x) s = .next t ∧
    t.i.toNat = s.straps.fontBase.val + 5 * ((s.reg x).toNat % 16) ∧ t.pc = s.pc + 2#16 ∧ OnlyChanges [.index] s t

/-- `Fx33` (R124): the three digits at `I`, `I + 1`, `I + 2`, every other byte as before; with a byte above 0xFFF it faults
and stores nothing (the order of the digits is G4, log entry 22). -/
def Obligations.BcdStoresThreeDigits : Prop :=
  ∀ (x : Nibble) (s : State),
    (s.i.toNat + 2 ≤ 0x0FFF → ∃ t, exec (.ldB x) s = .next t ∧
      t.readByte s.i.toNat = BitVec.ofNat 8 ((s.reg x).toNat / 100) ∧
      t.readByte (s.i.toNat + 1) = BitVec.ofNat 8 ((s.reg x).toNat / 10 % 10) ∧
      t.readByte (s.i.toNat + 2) = BitVec.ofNat 8 ((s.reg x).toNat % 10) ∧
      (∀ a, a < s.i.toNat ∨ s.i.toNat + 2 < a → t.readByte a = s.readByte a) ∧
      t.pc = s.pc + 2#16 ∧ OnlyChanges [.memory] s t) ∧
    (0x0FFF < s.i.toNat + 2 → exec (.ldB x) s = .next { s with run := .halted .addressOutOfRange })

/-- `Fx55` (R125): `V[j]` at `I + j` for `j ≤ x`, every other byte as before, `I` by the strap (D3, log entry 3); with a
byte above 0xFFF it faults and stores nothing. -/
def Obligations.BlockStoreWritesTheRegisters : Prop :=
  ∀ (x : Nibble) (s : State),
    (s.i.toNat + x.toNat ≤ 0x0FFF → ∃ t, exec (.storeRegs x) s = .next t ∧
      (∀ j : Nibble, j.toNat ≤ x.toNat → t.readByte (s.i.toNat + j.toNat) = s.reg j) ∧
      (∀ a, a < s.i.toNat ∨ s.i.toNat + x.toNat < a → t.readByte a = s.readByte a) ∧
      t.i.toNat = indexAfter s.straps.memIInc s.i.toNat x.toNat ∧
      t.pc = s.pc + 2#16 ∧ OnlyChanges [.memory, .index] s t) ∧
    (0x0FFF < s.i.toNat + x.toNat → exec (.storeRegs x) s = .next { s with run := .halted .addressOutOfRange })

/-- `Fx65` (R126): `V[j]` is the byte at `I + j` for `j ≤ x`, the higher registers and all of memory as before, `I` by the
strap (D3, log entry 3); with a byte above 0xFFF it faults and loads nothing. -/
def Obligations.BlockLoadReadsTheRegisters : Prop :=
  ∀ (x : Nibble) (s : State),
    (s.i.toNat + x.toNat ≤ 0x0FFF → ∃ t, exec (.loadRegs x) s = .next t ∧
      (∀ j : Nibble, t.reg j = if j.toNat ≤ x.toNat then s.readByte (s.i.toNat + j.toNat) else s.reg j) ∧
      t.i.toNat = indexAfter s.straps.memIInc s.i.toNat x.toNat ∧
      t.pc = s.pc + 2#16 ∧ OnlyChanges [.regs, .index] s t) ∧
    (0x0FFF < s.i.toNat + x.toNat → exec (.loadRegs x) s = .next { s with run := .halted .addressOutOfRange })

/-- What `Fx55` stored, `Fx65` with the same `I` loads again, whatever the registers hold in between (R125, R126). -/
def Obligations.BlockStoreThenLoadRestores : Prop :=
  ∀ (x : Nibble) (s : State) (w : Vector Byte 16), s.i.toNat + x.toNat ≤ 0x0FFF →
    ∃ t u, exec (.storeRegs x) s = .next t ∧ exec (.loadRegs x) { t with v := w, i := s.i } = .next u ∧
      ∀ j : Nibble, j.toNat ≤ x.toNat → u.reg j = s.reg j

/-- A byte stored by one step is the byte fetched by the next: where `Fx55` stores over the next instruction, that
instruction is the two registers stored there, the lower-numbered one more significant (spec/20_memory.md R51, R60). -/
def Obligations.StoredBytesAreTheNextInstruction : Prop :=
  ∀ (x j : Nibble) (s : State) (i : Instr), s.run = .running → s.i.toNat + x.toNat ≤ 0x0FFF → j.toNat < x.toNat →
    (s.pc + 2#16).toNat = s.i.toNat + j.toNat → decode s.straps.xFx1e (s.reg j ++ s.reg (j + 1)) = .ok i →
    ∃ t, exec (.storeRegs x) s = .next t ∧ stepEvent t = exec i t

/-- Memories in canonical form that read alike at every address are the same data. -/
def Obligations.CanonicalMemoriesThatReadAlikeAreEqual : Prop :=
  ∀ (q : Straps) (m m' : Memory), Memory.wf q m = true → Memory.wf q m' = true →
    (∀ a, Memory.read q m a = Memory.read q m' a) → m = m'

/-! ### Display -/

/-- `00E0` (spec/43_display.md R130): every pixel becomes 0, and nothing else changes but `PC`. -/
def Obligations.ClearUnsetsEveryPixel : Prop :=
  decode false 0x00E0 = .ok .cls ∧ decode true 0x00E0 = .ok .cls ∧
  ∀ s : State, ∃ t, exec .cls s = .next t ∧ (∀ row col, pixel t.disp row col = false) ∧ t.pc = s.pc + 2#16 ∧
    OnlyChanges [.display] s t

/-- `Dxyn` (R131): every pixel a set sprite bit lands on is inverted, every other one kept; VF = 1 exactly when one of those
was set; with `n = 0` no range test (D22), pixels wrap (D25, log entry 20); bit 7 leftmost is G6 (log entry 22); VF last is
D7 (log entry 11). With a sprite byte above 0xFFF it faults and draws nothing. -/
def Obligations.DrawInvertsTheTargetPixels : Prop :=
  ∀ (x y n : Nibble) (s : State),
    let target := Target ((s.reg x).toNat % 64) ((s.reg y).toNat % 32) n.toNat (fun r => s.readByte (s.i.toNat + r))
    (n.toNat = 0 ∨ s.i.toNat + n.toNat - 1 ≤ 0x0FFF → ∃ t, exec (.drw x y n) s = .next t ∧
      (∀ row col, target row col → pixel t.disp row col = !pixel s.disp row col) ∧
      (∀ row col, ¬ target row col → pixel t.disp row col = pixel s.disp row col) ∧
      ((∃ row col, target row col ∧ pixel s.disp row col = true) → t.reg 15 = 1) ∧
      ((∀ row col, target row col → pixel s.disp row col = false) → t.reg 15 = 0) ∧
      RegsExcept [15] s t ∧ t.pc = s.pc + 2#16 ∧ OnlyChanges [.regs, .display] s t) ∧
    (0 < n.toNat → 0x0FFF < s.i.toNat + n.toNat - 1 →
      exec (.drw x y n) s = .next { s with run := .halted .addressOutOfRange })

/-- The model draws a row at a time; the result, display and collision, is that of the two loops of R131, pixel by pixel
(log entry 27; pixels wrap: D25, log entry 20; bit 7 leftmost: G6, log entry 22). -/
def Obligations.DrawRefinesThePixelLoop : Prop :=
  ∀ (px py n : Nat) (byte : Nat → Byte) (d : Display),
    (pixel (draw px py ((List.range n).map byte) d).1, (draw px py ((List.range n).map byte) d).2) =
      pixelLoop px py n byte (pixel d)

/-- R132: drawing the same sprite at the same place twice restores the display, and VF after the second draw is 1 exactly
when some pixel is erased by it, that is when some target was unset before the first. The place is the same when neither
coordinate is taken from VF, which the first draw writes. A target wraps (D25, log entry 20), bit 7 is leftmost (G6, log
entry 22), `n = 0` has none (D22, log entry 20), VF is written last (D7, log entry 11). -/
def Obligations.DrawingTwiceRestoresTheDisplay : Prop :=
  ∀ (x y n : Nibble) (s : State), x ≠ 15 → y ≠ 15 → n.toNat = 0 ∨ s.i.toNat + n.toNat - 1 ≤ 0x0FFF →
    let target := Target ((s.reg x).toNat % 64) ((s.reg y).toNat % 32) n.toNat (fun r => s.readByte (s.i.toNat + r))
    ∃ t u, exec (.drw x y n) s = .next t ∧ exec (.drw x y n) t = .next u ∧ u.disp = s.disp ∧
      (u.reg 15 = 1 ↔ ∃ row col, pixel t.disp row col = true ∧ pixel u.disp row col = false) ∧
      (u.reg 15 = 1 ↔ ∃ row col, target row col ∧ pixel s.disp row col = false) ∧ (u.reg 15 = 1 ∨ u.reg 15 = 0)

/-- `ReadDisplay` (R133): it returns the grid as it stands and changes no state. -/
def Obligations.ReadDisplayReturnsTheGrid : Prop :=
  ∀ s : State, handle .readDisplay s = .next s ∧ ∀ row col, readDisplay s row col = pixel s.disp row col

/-! ### Random -/

/-- `Cxkk` (spec/44_random.md R135): the result has no bit outside the mask, whatever the random byte is; every such byte is
the result of some random byte; nothing else changes but `PC` and the model's own counter (log entry 2). -/
def Obligations.RandomByteIsMasked : Prop :=
  Decodes 0xF000 0xC000 (fun ins => .rnd (xOf ins) (kkOf ins)) ∧
  ∀ (x : Nibble) (kk : Byte) (s : State),
    (∃ t, exec (.rnd x kk) s = .next t ∧ t.reg x = Config.rnd s.draws &&& kk ∧ t.reg x &&& ~~~kk = 0 ∧
      RegsExcept [x] s t ∧ t.pc = s.pc + 2#16 ∧ OnlyChanges [.regs, .draws] s t) ∧
    ∀ r : Byte, r &&& ~~~kk = 0 → ∃ b, (rndWith b x kk s).reg x = r

/-- Determinism (R136): no instruction but `Cxkk` depends on the random source, here on the counter of the draws. -/
def Obligations.OnlyRndUsesTheRandomSource : Prop :=
  ∀ (i : Instr) (s : State) (n : Nat), (∀ x kk, i ≠ .rnd x kk) →
    exec i { s with draws := n } = mapNext (fun t => { t with draws := n }) (exec i s)

/-! ### Input -/

/-- `Ex9E` and `ExA1` (spec/45_input.md R141, R142): they test the latch at the low nibble of `V[x]` (D10, log entry 14),
move `PC` by 4 or 2, and change nothing else. -/
def Obligations.KeySkipsTestTheLatch : Prop :=
  ∀ (x : Nibble) (s : State),
    let down := s.keys.getLsbD ((s.reg x).toNat % 16) = true
    (∃ t, exec (.skp x) s = .next t ∧ (down → t.pc = s.pc + 4#16) ∧ (¬ down → t.pc = s.pc + 2#16) ∧ OnlyChanges [] s t) ∧
    ∃ t, exec (.sknp x) s = .next t ∧ (down → t.pc = s.pc + 2#16) ∧ (¬ down → t.pc = s.pc + 4#16) ∧ OnlyChanges [] s t

/-- `Fx0A` from beginning to end (R143, R144): its first step waits with `PC` at the instruction, any number of further
steps change nothing, a `KeyUpdate` whose lowest newly pressed key is `j` and one more step write `j` to `V[x]`, move `PC`
by 2 and let the machine run on. A `Step` from `KeyReady` completes so in every such state, whatever the latch then holds (edge,
lowest key, the sub-state `KeyReady`: D11, log entry 15). -/
def Obligations.KeyWaitCompletesOnANewlyPressedKey : Prop :=
  (∀ (x : Nibble) (s : State), ∃ t, exec (.ldVxK x) s = .next t ∧ t.run = .awaitingKey x ∧ t.pc = s.pc ∧
    OnlyChanges [.run] s t ∧ (∀ n, runEvents (List.replicate n .step) t = .next t) ∧
    ∀ (j : Nibble) (k : Half), k.getLsbD j.toNat = true → s.keys.getLsbD j.toNat = false →
      (∀ l : Nibble, l.toNat < j.toNat → k.getLsbD l.toNat = true → s.keys.getLsbD l.toNat = true) →
      ∃ u, runEvents [.keyUpdate k, .step] t = .next u ∧ (u.reg x).toNat = j.toNat ∧ RegsExcept [x] s u ∧
        u.pc = s.pc + 2#16 ∧ u.run = .running ∧ u.keys = k ∧ OnlyChanges [.regs, .keys, .run] s u) ∧
  ∀ (x k : Nibble) (s : State), s.run = .keyReady x k → ∃ t, stepEvent s = .next t ∧ (t.reg x).toNat = k.toNat ∧
    RegsExcept [x] s t ∧ t.pc = s.pc + 2#16 ∧ t.run = .running ∧ OnlyChanges [.regs, .run] s t

/-- `KeyUpdate` (R144): the latch is replaced; a waiting machine is handed the lowest newly pressed key, if there is one
(D11, log entry 15); otherwise the run state stays; nothing else changes. -/
def Obligations.KeyUpdateReplacesTheLatch : Prop :=
  ∀ (k : Half) (s : State), ∃ t, handle (.keyUpdate k) s = .next t ∧ t.keys = k ∧ t.pc = s.pc ∧
    OnlyChanges [.keys, .run] s t ∧ ((∀ x, s.run ≠ .awaitingKey x) → t.run = s.run) ∧
    ∀ x, s.run = .awaitingKey x →
      ((∀ j : Nibble, k.getLsbD j.toNat = true → s.keys.getLsbD j.toNat = true) → t.run = s.run) ∧
      ∀ j : Nibble, k.getLsbD j.toNat = true → s.keys.getLsbD j.toNat = false →
        (∀ l : Nibble, l.toNat < j.toNat → k.getLsbD l.toNat = true → s.keys.getLsbD l.toNat = true) →
        t.run = .keyReady x j

/-- The key wait is entered only by an `Fx0A` and left only by a `KeyUpdate` that reports a newly pressed key, or by a reset
(spec/60_exceptions.md R171). That a key pressed now and not before ends the wait is the edge reading D11 (log entry 15). -/
def Obligations.KeyWaitIsEnteredAndLeftAsStated : Prop :=
  ∀ (e : Event) (x : Nibble) (s t : State), handle e s = .next t →
    (s.run = .awaitingKey x → t.run ≠ .awaitingKey x →
      (∃ image q, e = .reset image q) ∨
      ∃ k j, e = .keyUpdate k ∧ t.run = .keyReady x j ∧ k.getLsbD j.toNat = true ∧ s.keys.getLsbD j.toNat = false) ∧
    (s.run ≠ .awaitingKey x → t.run = .awaitingKey x →
      e = .step ∧ s.run = .running ∧ s.pc.toNat ≤ 0x0FFE ∧ decode s.straps.xFx1e (fetchWord s) = .ok (.ldVxK x))

/-! ### Timers -/

/-- `Fx07`, `Fx15`, `Fx18` (spec/46_timers.md R147 to R149): the timer moves. That `Fx18` writes `ST` is D15 (log entry 17). -/
def Obligations.TimerMovesCopyTheTimers : Prop :=
  ∀ (x : Nibble) (s : State),
    (∃ t, exec (.ldVxDt x) s = .next t ∧ t.reg x = s.dt ∧ RegsExcept [x] s t ∧ t.pc = s.pc + 2#16 ∧
      OnlyChanges [.regs] s t) ∧
    (∃ t, exec (.ldDtVx x) s = .next t ∧ t.dt = s.reg x ∧ t.pc = s.pc + 2#16 ∧ OnlyChanges [.delay] s t) ∧
    ∃ t, exec (.ldStVx x) s = .next t ∧ t.st = s.reg x ∧ t.pc = s.pc + 2#16 ∧ OnlyChanges [.sound] s t

/-- `Tick60` (spec/60_exceptions.md R165): each counter above 0 goes down by one, a counter at 0 stays; in every run state;
nothing else changes (both in one event: D26, log entry 21). -/
def Obligations.TickDecrementsBothTimers : Prop :=
  ∀ s : State, ∃ t, handle .tick60 s = .next t ∧ t.dt.toNat = s.dt.toNat - 1 ∧ t.st.toNat = s.st.toNat - 1 ∧
    t.pc = s.pc ∧ OnlyChanges [.delay, .sound] s t

/-- After `n` ticks a counter of value `v` is `max(0, v - n)` (R167; that the same ticks bring down both is D26, log entry 21). -/
def Obligations.TimersCountDownAndStayAtZero : Prop :=
  ∀ (n : Nat) (s : State), ∃ t, runEvents (List.replicate n .tick60) s = .next t ∧ t.dt.toNat = s.dt.toNat - n ∧
    t.st.toNat = s.st.toNat - n ∧ t.pc = s.pc ∧ OnlyChanges [.delay, .sound] s t

/-! ### Whole-machine rules -/

/-- No instruction writes a part of the state that its rule does not list; the run state changes only into a fault, or into
the wait of an `Fx0A` (spec/10_state.md R20 to R35). -/
def Obligations.InstructionsWriteOnlyTheirParts : Prop :=
  ∀ (i : Instr) (s t : State), exec i s = .next t →
    OnlyChanges (.run :: writes s.straps i) s t ∧
    (t.run = s.run ∨ (∃ k, t.run = .halted k) ∨ ∃ x, i = .ldVxK x ∧ t.run = .awaitingKey x)

/-- No instruction writes a register that is neither its destination nor, for the six flag-setting instructions, VF
(spec/10_state.md R20, R21; logic operations leave VF: D8, log entry 12). -/
def Obligations.InstructionsWriteOnlyTheirRegisters : Prop :=
  ∀ (i : Instr) (s t : State) (r : Nibble), exec i s = .next t → ¬ writesReg i r → t.reg r = s.reg r

/-- `PC` advances by exactly 2 for every instruction that completes in its step and is no jump, call or return, or by 4 for
a skip (spec/10_state.md R23, spec/40_control_flow.md R90). -/
def Obligations.PcAdvancesByTwoOrFour : Prop :=
  ∀ (i : Instr) (s t : State), exec i s = .next t → s.run = .running → t.run = .running → isJump i = false →
    t.pc = s.pc + 2#16 ∨ (isSkip i = true ∧ t.pc = s.pc + 4#16)

/-- No program can observe the sound timer (spec/10_state.md R26): over any events, runs from two states that differ only in
`ST` end in states that differ at most in `ST`. -/
def Obligations.SoundTimerIsUnobservable : Prop :=
  ∀ (es : List Event) (s : State) (b : Byte),
    mapNext (fun t => { t with st := 0 }) (runEvents es { s with st := b }) =
      mapNext (fun t => { t with st := 0 }) (runEvents es s)

/-- Stack entries not in use are unobservable (spec/10_state.md R24; D19, log entry 18): over any events, runs from states
that differ only in them end in states that differ only in them. -/
def Obligations.StaleStackEntriesAreUnobservable : Prop :=
  ∀ (es : List Event) (s t s' : State), AgreeBelowSp s t → runEvents es s = .next s' →
    ∃ t', runEvents es t = .next t' ∧ AgreeBelowSp s' t'

/-- A settled run (a jump to itself) stays settled over any events but `Reset`; nothing but the timers and the keys changes,
and `DT` counts the ticks down (spec/70_reset_and_hazards.md R189; the notion is D27, log entry 31). -/
def Obligations.SettledRunsStaySettled : Prop :=
  ∀ (es : List Event) (s t : State), s.Settled → noReset es → runEvents es s = .next t →
    t.Settled ∧ t.pc = s.pc ∧ OnlyChanges [.delay, .sound, .keys] s t ∧
    t.dt.toNat = s.dt.toNat - es.count .tick60

/-- Under a fair schedule without resets, a settled machine's delay timer reaches 0 and stays there
(spec/60_exceptions.md R166, R167; fairness is D18, log entry 26; the notion settled is D27, log entry 31). -/
def Obligations.FairSchedulesRunTheDelayTimerOut : Prop :=
  ∀ (f : Schedule) (s : State), f.Fair → (∀ n image q, f n ≠ .reset image q) → s.Settled →
    ∃ n, ∀ m, n ≤ m → ∃ t, runEvents (f.first m) s = .next t ∧ t.dt = 0
end

