-- ==== Sys2Proof/Laws/Decode.lean ====
section
/-! SUPPORT. The formats of instruction words (spec/30_encoding.md R71): their value, their fields and their masking. -/

namespace Sys2Proof

theorem formatNNN_toNat (op : Nibble) (nnn : Addr) : (formatNNN op nnn).toNat = op.toNat * 4096 + nnn.toNat := by
  show (op ++ nnn : BitVec (4 + 12)).toNat = _
  rw [BitVec.toNat_append, ← Nat.shiftLeft_add_eq_or_of_lt nnn.isLt, Nat.shiftLeft_eq]

theorem formatXKK_toNat (op x : Nibble) (kk : Byte) :
    (formatXKK op x kk).toNat = op.toNat * 4096 + x.toNat * 256 + kk.toNat := by
  show (op ++ x ++ kk : BitVec (4 + 4 + 8)).toNat = _
  rw [BitVec.toNat_append, BitVec.toNat_append, ← Nat.shiftLeft_add_eq_or_of_lt kk.isLt,
    ← Nat.shiftLeft_add_eq_or_of_lt x.isLt, Nat.shiftLeft_eq, Nat.shiftLeft_eq]
  omega

theorem formatXYN_toNat (op x y n : Nibble) :
    (formatXYN op x y n).toNat = op.toNat * 4096 + x.toNat * 256 + y.toNat * 16 + n.toNat := by
  show (op ++ x ++ y ++ n : BitVec (4 + 4 + 4 + 4)).toNat = _
  rw [BitVec.toNat_append, BitVec.toNat_append, BitVec.toNat_append, ← Nat.shiftLeft_add_eq_or_of_lt n.isLt,
    ← Nat.shiftLeft_add_eq_or_of_lt y.isLt, ← Nat.shiftLeft_add_eq_or_of_lt x.isLt, Nat.shiftLeft_eq, Nat.shiftLeft_eq,
    Nat.shiftLeft_eq]
  omega

/-- A field of a word is its quotient by the field's place, modulo the field's range (spec/00_scope.md R8). -/
theorem field_toNat (ins : Half) (lo len : Nat) : (ins.extractLsb' lo len).toNat = ins.toNat / 2 ^ lo % 2 ^ len := by
  rw [BitVec.extractLsb'_toNat, Nat.shiftRight_eq_div_pow]

@[simp] theorem op_formatNNN (op : Nibble) (nnn : Addr) : Ins.op (formatNNN op nnn) = op := by
  apply BitVec.eq_of_toNat_eq
  have := op.isLt; have := nnn.isLt
  simp only [Ins.op, field_toNat, formatNNN_toNat]
  omega

@[simp] theorem nnn_formatNNN (op : Nibble) (nnn : Addr) : Ins.nnn (formatNNN op nnn) = nnn := by
  apply BitVec.eq_of_toNat_eq
  have := op.isLt; have := nnn.isLt
  simp only [Ins.nnn, field_toNat, formatNNN_toNat]
  omega

@[simp] theorem op_formatXKK (op x : Nibble) (kk : Byte) : Ins.op (formatXKK op x kk) = op := by
  apply BitVec.eq_of_toNat_eq
  have := op.isLt; have := x.isLt; have := kk.isLt
  simp only [Ins.op, field_toNat, formatXKK_toNat]
  omega

@[simp] theorem x_formatXKK (op x : Nibble) (kk : Byte) : Ins.x (formatXKK op x kk) = x := by
  apply BitVec.eq_of_toNat_eq
  have := op.isLt; have := x.isLt; have := kk.isLt
  simp only [Ins.x, field_toNat, formatXKK_toNat]
  omega

@[simp] theorem kk_formatXKK (op x : Nibble) (kk : Byte) : Ins.kk (formatXKK op x kk) = kk := by
  apply BitVec.eq_of_toNat_eq
  have := op.isLt; have := x.isLt; have := kk.isLt
  simp only [Ins.kk, field_toNat, formatXKK_toNat]
  omega

@[simp] theorem op_formatXYN (op x y n : Nibble) : Ins.op (formatXYN op x y n) = op := by
  apply BitVec.eq_of_toNat_eq
  have := op.isLt; have := x.isLt; have := y.isLt; have := n.isLt
  simp only [Ins.op, field_toNat, formatXYN_toNat]
  omega

@[simp] theorem x_formatXYN (op x y n : Nibble) : Ins.x (formatXYN op x y n) = x := by
  apply BitVec.eq_of_toNat_eq
  have := op.isLt; have := x.isLt; have := y.isLt; have := n.isLt
  simp only [Ins.x, field_toNat, formatXYN_toNat]
  omega

@[simp] theorem y_formatXYN (op x y n : Nibble) : Ins.y (formatXYN op x y n) = y := by
  apply BitVec.eq_of_toNat_eq
  have := op.isLt; have := x.isLt; have := y.isLt; have := n.isLt
  simp only [Ins.y, field_toNat, formatXYN_toNat]
  omega

@[simp] theorem n_formatXYN (op x y n : Nibble) : Ins.n (formatXYN op x y n) = n := by
  apply BitVec.eq_of_toNat_eq
  have := op.isLt; have := x.isLt; have := y.isLt; have := n.isLt
  simp only [Ins.n, field_toNat, formatXYN_toNat]
  omega

/-- Masking a word of format `NNN` masks its fields. -/
theorem formatNNN_and (op op' : Nibble) (nnn nnn' : Addr) :
    formatNNN op nnn &&& formatNNN op' nnn' = formatNNN (op &&& op') (nnn &&& nnn') :=
  BitVec.and_append (x₁ := op) (x₂ := op') (y₁ := nnn) (y₂ := nnn')

/-- Masking a word of format `XKK` masks its fields. -/
theorem formatXKK_and (op op' x x' : Nibble) (kk kk' : Byte) :
    formatXKK op x kk &&& formatXKK op' x' kk' = formatXKK (op &&& op') (x &&& x') (kk &&& kk') := by
  have h := BitVec.and_append (x₁ := op ++ x) (x₂ := op' ++ x') (y₁ := kk) (y₂ := kk')
  exact h.trans (congrArg (fun w => w ++ (kk &&& kk')) BitVec.and_append)

/-- Masking a word of format `XYN` masks its fields. -/
theorem formatXYN_and (op op' x x' y y' n n' : Nibble) :
    formatXYN op x y n &&& formatXYN op' x' y' n' = formatXYN (op &&& op') (x &&& x') (y &&& y') (n &&& n') := by
  have h := BitVec.and_append (x₁ := op ++ x ++ y) (x₂ := op' ++ x' ++ y') (y₁ := n) (y₂ := n')
  have h' := BitVec.and_append (x₁ := op ++ x) (x₂ := op' ++ x') (y₁ := y) (y₂ := y')
  rw [BitVec.and_append (x₁ := op) (x₂ := op')] at h'
  exact h.trans (congrArg (fun w => w ++ (n &&& n')) h')

/-- A word is its fields `op` and `nnn`, one after the other. -/
theorem formatNNN_fields (ins : Half) : formatNNN (Ins.op ins) (Ins.nnn ins) = ins := by
  apply BitVec.eq_of_toNat_eq
  have := ins.isLt
  simp only [formatNNN_toNat, Ins.op, Ins.nnn, field_toNat]
  omega

/-- A word is its fields `op`, `x` and `kk`, one after the other. -/
theorem formatXKK_fields (ins : Half) : formatXKK (Ins.op ins) (Ins.x ins) (Ins.kk ins) = ins := by
  apply BitVec.eq_of_toNat_eq
  have := ins.isLt
  simp only [formatXKK_toNat, Ins.op, Ins.x, Ins.kk, field_toNat]
  omega

/-- A word is its four nibbles, one after the other. -/
theorem formatXYN_fields (ins : Half) : formatXYN (Ins.op ins) (Ins.x ins) (Ins.y ins) (Ins.n ins) = ins := by
  apply BitVec.eq_of_toNat_eq
  have := ins.isLt
  simp only [formatXYN_toNat, Ins.op, Ins.x, Ins.y, Ins.n, field_toNat]
  omega

/-- The two bytes of a word, put together again, are the word (spec/20_memory.md R50). -/
@[simp] theorem wordOfBytes_hiByte_loByte (ins : Half) : wordOfBytes (hiByte ins) (loByte ins) = ins := by
  apply BitVec.eq_of_toNat_eq
  have := ins.isLt
  show (hiByte ins ++ loByte ins : BitVec (8 + 8)).toNat = _
  rw [BitVec.toNat_append, ← Nat.shiftLeft_add_eq_or_of_lt (loByte ins).isLt, Nat.shiftLeft_eq]
  simp only [hiByte, loByte, field_toNat]
  omega

end Sys2Proof
end

