-- ==== Sys2Proof/Laws/State.lean ====
section
/-! SUPPORT. The small laws of State: one lemma for each field and each update, true by definition, so that no later proof
unfolds a record update; and the accessors through the updates. -/

namespace Sys2Proof.Machine

variable (s : State)

@[simp] theorem State.setReg_v (x : Nibble) (b : Byte) : (s.setReg x b).v = s.v.set x.toNat b x.isLt := rfl
@[simp] theorem State.setReg_i (x : Nibble) (b : Byte) : (s.setReg x b).i = s.i := rfl
@[simp] theorem State.setReg_pc (x : Nibble) (b : Byte) : (s.setReg x b).pc = s.pc := rfl
@[simp] theorem State.setReg_sp (x : Nibble) (b : Byte) : (s.setReg x b).sp = s.sp := rfl
@[simp] theorem State.setReg_stack (x : Nibble) (b : Byte) : (s.setReg x b).stack = s.stack := rfl
@[simp] theorem State.setReg_dt (x : Nibble) (b : Byte) : (s.setReg x b).dt = s.dt := rfl
@[simp] theorem State.setReg_st (x : Nibble) (b : Byte) : (s.setReg x b).st = s.st := rfl
@[simp] theorem State.setReg_mem (x : Nibble) (b : Byte) : (s.setReg x b).mem = s.mem := rfl
@[simp] theorem State.setReg_disp (x : Nibble) (b : Byte) : (s.setReg x b).disp = s.disp := rfl
@[simp] theorem State.setReg_keys (x : Nibble) (b : Byte) : (s.setReg x b).keys = s.keys := rfl
@[simp] theorem State.setReg_run (x : Nibble) (b : Byte) : (s.setReg x b).run = s.run := rfl
@[simp] theorem State.setReg_straps (x : Nibble) (b : Byte) : (s.setReg x b).straps = s.straps := rfl
@[simp] theorem State.setReg_draws (x : Nibble) (b : Byte) : (s.setReg x b).draws = s.draws := rfl
@[simp] theorem State.setReg_pending (x : Nibble) (b : Byte) : (s.setReg x b).pending = s.pending := rfl

@[simp] theorem State.setI_v (w : Half) : (s.setI w).v = s.v := rfl
@[simp] theorem State.setI_i (w : Half) : (s.setI w).i = w &&& 0x0FFF#16 := rfl
@[simp] theorem State.setI_pc (w : Half) : (s.setI w).pc = s.pc := rfl
@[simp] theorem State.setI_sp (w : Half) : (s.setI w).sp = s.sp := rfl
@[simp] theorem State.setI_stack (w : Half) : (s.setI w).stack = s.stack := rfl
@[simp] theorem State.setI_dt (w : Half) : (s.setI w).dt = s.dt := rfl
@[simp] theorem State.setI_st (w : Half) : (s.setI w).st = s.st := rfl
@[simp] theorem State.setI_mem (w : Half) : (s.setI w).mem = s.mem := rfl
@[simp] theorem State.setI_disp (w : Half) : (s.setI w).disp = s.disp := rfl
@[simp] theorem State.setI_keys (w : Half) : (s.setI w).keys = s.keys := rfl
@[simp] theorem State.setI_run (w : Half) : (s.setI w).run = s.run := rfl
@[simp] theorem State.setI_straps (w : Half) : (s.setI w).straps = s.straps := rfl
@[simp] theorem State.setI_draws (w : Half) : (s.setI w).draws = s.draws := rfl
@[simp] theorem State.setI_pending (w : Half) : (s.setI w).pending = s.pending := rfl

@[simp] theorem State.setPc_v (t : Half) : (s.setPc t).v = s.v := rfl
@[simp] theorem State.setPc_i (t : Half) : (s.setPc t).i = s.i := rfl
@[simp] theorem State.setPc_pc (t : Half) : (s.setPc t).pc = t := rfl
@[simp] theorem State.setPc_sp (t : Half) : (s.setPc t).sp = s.sp := rfl
@[simp] theorem State.setPc_stack (t : Half) : (s.setPc t).stack = s.stack := rfl
@[simp] theorem State.setPc_dt (t : Half) : (s.setPc t).dt = s.dt := rfl
@[simp] theorem State.setPc_st (t : Half) : (s.setPc t).st = s.st := rfl
@[simp] theorem State.setPc_mem (t : Half) : (s.setPc t).mem = s.mem := rfl
@[simp] theorem State.setPc_disp (t : Half) : (s.setPc t).disp = s.disp := rfl
@[simp] theorem State.setPc_keys (t : Half) : (s.setPc t).keys = s.keys := rfl
@[simp] theorem State.setPc_run (t : Half) : (s.setPc t).run = s.run := rfl
@[simp] theorem State.setPc_straps (t : Half) : (s.setPc t).straps = s.straps := rfl
@[simp] theorem State.setPc_draws (t : Half) : (s.setPc t).draws = s.draws := rfl
@[simp] theorem State.setPc_pending (t : Half) : (s.setPc t).pending = s.pending := rfl

@[simp] theorem State.advance_v : (s.advance).v = s.v := rfl
@[simp] theorem State.advance_i : (s.advance).i = s.i := rfl
@[simp] theorem State.advance_pc : (s.advance).pc = s.pc + 2#16 := rfl
@[simp] theorem State.advance_sp : (s.advance).sp = s.sp := rfl
@[simp] theorem State.advance_stack : (s.advance).stack = s.stack := rfl
@[simp] theorem State.advance_dt : (s.advance).dt = s.dt := rfl
@[simp] theorem State.advance_st : (s.advance).st = s.st := rfl
@[simp] theorem State.advance_mem : (s.advance).mem = s.mem := rfl
@[simp] theorem State.advance_disp : (s.advance).disp = s.disp := rfl
@[simp] theorem State.advance_keys : (s.advance).keys = s.keys := rfl
@[simp] theorem State.advance_run : (s.advance).run = s.run := rfl
@[simp] theorem State.advance_straps : (s.advance).straps = s.straps := rfl
@[simp] theorem State.advance_draws : (s.advance).draws = s.draws := rfl
@[simp] theorem State.advance_pending : (s.advance).pending = s.pending := rfl

@[simp] theorem State.writeByte_v (a : Nat) (b : Byte) : (s.writeByte a b).v = s.v := rfl
@[simp] theorem State.writeByte_i (a : Nat) (b : Byte) : (s.writeByte a b).i = s.i := rfl
@[simp] theorem State.writeByte_pc (a : Nat) (b : Byte) : (s.writeByte a b).pc = s.pc := rfl
@[simp] theorem State.writeByte_sp (a : Nat) (b : Byte) : (s.writeByte a b).sp = s.sp := rfl
@[simp] theorem State.writeByte_stack (a : Nat) (b : Byte) : (s.writeByte a b).stack = s.stack := rfl
@[simp] theorem State.writeByte_dt (a : Nat) (b : Byte) : (s.writeByte a b).dt = s.dt := rfl
@[simp] theorem State.writeByte_st (a : Nat) (b : Byte) : (s.writeByte a b).st = s.st := rfl
@[simp] theorem State.writeByte_mem (a : Nat) (b : Byte) : (s.writeByte a b).mem = Memory.write s.straps s.mem a b := rfl
@[simp] theorem State.writeByte_disp (a : Nat) (b : Byte) : (s.writeByte a b).disp = s.disp := rfl
@[simp] theorem State.writeByte_keys (a : Nat) (b : Byte) : (s.writeByte a b).keys = s.keys := rfl
@[simp] theorem State.writeByte_run (a : Nat) (b : Byte) : (s.writeByte a b).run = s.run := rfl
@[simp] theorem State.writeByte_straps (a : Nat) (b : Byte) : (s.writeByte a b).straps = s.straps := rfl
@[simp] theorem State.writeByte_draws (a : Nat) (b : Byte) : (s.writeByte a b).draws = s.draws := rfl
@[simp] theorem State.writeByte_pending (a : Nat) (b : Byte) : (s.writeByte a b).pending = s.pending := rfl

@[simp] theorem State.writeBytes_v (a : Nat) (bs : List Byte) : (s.writeBytes a bs).v = s.v := rfl
@[simp] theorem State.writeBytes_i (a : Nat) (bs : List Byte) : (s.writeBytes a bs).i = s.i := rfl
@[simp] theorem State.writeBytes_pc (a : Nat) (bs : List Byte) : (s.writeBytes a bs).pc = s.pc := rfl
@[simp] theorem State.writeBytes_sp (a : Nat) (bs : List Byte) : (s.writeBytes a bs).sp = s.sp := rfl
@[simp] theorem State.writeBytes_stack (a : Nat) (bs : List Byte) : (s.writeBytes a bs).stack = s.stack := rfl
@[simp] theorem State.writeBytes_dt (a : Nat) (bs : List Byte) : (s.writeBytes a bs).dt = s.dt := rfl
@[simp] theorem State.writeBytes_st (a : Nat) (bs : List Byte) : (s.writeBytes a bs).st = s.st := rfl
@[simp] theorem State.writeBytes_mem (a : Nat) (bs : List Byte) : (s.writeBytes a bs).mem = Memory.writeBytes s.straps s.mem a bs := rfl
@[simp] theorem State.writeBytes_disp (a : Nat) (bs : List Byte) : (s.writeBytes a bs).disp = s.disp := rfl
@[simp] theorem State.writeBytes_keys (a : Nat) (bs : List Byte) : (s.writeBytes a bs).keys = s.keys := rfl
@[simp] theorem State.writeBytes_run (a : Nat) (bs : List Byte) : (s.writeBytes a bs).run = s.run := rfl
@[simp] theorem State.writeBytes_straps (a : Nat) (bs : List Byte) : (s.writeBytes a bs).straps = s.straps := rfl
@[simp] theorem State.writeBytes_draws (a : Nat) (bs : List Byte) : (s.writeBytes a bs).draws = s.draws := rfl
@[simp] theorem State.writeBytes_pending (a : Nat) (bs : List Byte) : (s.writeBytes a bs).pending = s.pending := rfl

@[simp] theorem State.setRegFlag_i (x : Nibble) (b c : Byte) : (s.setRegFlag x b c).i = s.i := rfl
@[simp] theorem State.setRegFlag_pc (x : Nibble) (b c : Byte) : (s.setRegFlag x b c).pc = s.pc := rfl
@[simp] theorem State.setRegFlag_sp (x : Nibble) (b c : Byte) : (s.setRegFlag x b c).sp = s.sp := rfl
@[simp] theorem State.setRegFlag_stack (x : Nibble) (b c : Byte) : (s.setRegFlag x b c).stack = s.stack := rfl
@[simp] theorem State.setRegFlag_dt (x : Nibble) (b c : Byte) : (s.setRegFlag x b c).dt = s.dt := rfl
@[simp] theorem State.setRegFlag_st (x : Nibble) (b c : Byte) : (s.setRegFlag x b c).st = s.st := rfl
@[simp] theorem State.setRegFlag_mem (x : Nibble) (b c : Byte) : (s.setRegFlag x b c).mem = s.mem := rfl
@[simp] theorem State.setRegFlag_disp (x : Nibble) (b c : Byte) : (s.setRegFlag x b c).disp = s.disp := rfl
@[simp] theorem State.setRegFlag_keys (x : Nibble) (b c : Byte) : (s.setRegFlag x b c).keys = s.keys := rfl
@[simp] theorem State.setRegFlag_run (x : Nibble) (b c : Byte) : (s.setRegFlag x b c).run = s.run := rfl
@[simp] theorem State.setRegFlag_straps (x : Nibble) (b c : Byte) : (s.setRegFlag x b c).straps = s.straps := rfl
@[simp] theorem State.setRegFlag_draws (x : Nibble) (b c : Byte) : (s.setRegFlag x b c).draws = s.draws := rfl
@[simp] theorem State.setRegFlag_pending (x : Nibble) (b c : Byte) : (s.setRegFlag x b c).pending = s.pending := rfl

@[simp] theorem State.skipIf_v (c : Bool) : (State.skipIf c s).v = s.v := by cases c <;> rfl
@[simp] theorem State.skipIf_i (c : Bool) : (State.skipIf c s).i = s.i := by cases c <;> rfl
@[simp] theorem State.skipIf_pc (c : Bool) : (State.skipIf c s).pc = if c then s.pc + 4#16 else s.pc + 2#16 := by
  cases c
  · rfl
  · simp only [State.skipIf, State.npc, if_true, State.setPc_pc, BitVec.add_assoc]; rfl
@[simp] theorem State.skipIf_sp (c : Bool) : (State.skipIf c s).sp = s.sp := by cases c <;> rfl
@[simp] theorem State.skipIf_stack (c : Bool) : (State.skipIf c s).stack = s.stack := by cases c <;> rfl
@[simp] theorem State.skipIf_dt (c : Bool) : (State.skipIf c s).dt = s.dt := by cases c <;> rfl
@[simp] theorem State.skipIf_st (c : Bool) : (State.skipIf c s).st = s.st := by cases c <;> rfl
@[simp] theorem State.skipIf_mem (c : Bool) : (State.skipIf c s).mem = s.mem := by cases c <;> rfl
@[simp] theorem State.skipIf_disp (c : Bool) : (State.skipIf c s).disp = s.disp := by cases c <;> rfl
@[simp] theorem State.skipIf_keys (c : Bool) : (State.skipIf c s).keys = s.keys := by cases c <;> rfl
@[simp] theorem State.skipIf_run (c : Bool) : (State.skipIf c s).run = s.run := by cases c <;> rfl
@[simp] theorem State.skipIf_straps (c : Bool) : (State.skipIf c s).straps = s.straps := by cases c <;> rfl
@[simp] theorem State.skipIf_draws (c : Bool) : (State.skipIf c s).draws = s.draws := by cases c <;> rfl
@[simp] theorem State.skipIf_pending (c : Bool) : (State.skipIf c s).pending = s.pending := by cases c <;> rfl

@[simp] theorem setBlockIndex_v (x : Nibble) : (setBlockIndex x s).v = s.v := by unfold setBlockIndex; split <;> rfl
@[simp] theorem setBlockIndex_pc (x : Nibble) : (setBlockIndex x s).pc = s.pc := by unfold setBlockIndex; split <;> rfl
@[simp] theorem setBlockIndex_sp (x : Nibble) : (setBlockIndex x s).sp = s.sp := by unfold setBlockIndex; split <;> rfl
@[simp] theorem setBlockIndex_stack (x : Nibble) : (setBlockIndex x s).stack = s.stack := by unfold setBlockIndex; split <;> rfl
@[simp] theorem setBlockIndex_dt (x : Nibble) : (setBlockIndex x s).dt = s.dt := by unfold setBlockIndex; split <;> rfl
@[simp] theorem setBlockIndex_st (x : Nibble) : (setBlockIndex x s).st = s.st := by unfold setBlockIndex; split <;> rfl
@[simp] theorem setBlockIndex_mem (x : Nibble) : (setBlockIndex x s).mem = s.mem := by unfold setBlockIndex; split <;> rfl
@[simp] theorem setBlockIndex_disp (x : Nibble) : (setBlockIndex x s).disp = s.disp := by unfold setBlockIndex; split <;> rfl
@[simp] theorem setBlockIndex_keys (x : Nibble) : (setBlockIndex x s).keys = s.keys := by unfold setBlockIndex; split <;> rfl
@[simp] theorem setBlockIndex_run (x : Nibble) : (setBlockIndex x s).run = s.run := by unfold setBlockIndex; split <;> rfl
@[simp] theorem setBlockIndex_straps (x : Nibble) : (setBlockIndex x s).straps = s.straps := by unfold setBlockIndex; split <;> rfl
@[simp] theorem setBlockIndex_draws (x : Nibble) : (setBlockIndex x s).draws = s.draws := by unfold setBlockIndex; split <;> rfl
@[simp] theorem setBlockIndex_pending (x : Nibble) : (setBlockIndex x s).pending = s.pending := by unfold setBlockIndex; split <;> rfl

@[simp] theorem loadUpTo_i (x : Nibble) : (loadUpTo x s).i = s.i := rfl
@[simp] theorem loadUpTo_pc (x : Nibble) : (loadUpTo x s).pc = s.pc := rfl
@[simp] theorem loadUpTo_sp (x : Nibble) : (loadUpTo x s).sp = s.sp := rfl
@[simp] theorem loadUpTo_stack (x : Nibble) : (loadUpTo x s).stack = s.stack := rfl
@[simp] theorem loadUpTo_dt (x : Nibble) : (loadUpTo x s).dt = s.dt := rfl
@[simp] theorem loadUpTo_st (x : Nibble) : (loadUpTo x s).st = s.st := rfl
@[simp] theorem loadUpTo_mem (x : Nibble) : (loadUpTo x s).mem = s.mem := rfl
@[simp] theorem loadUpTo_disp (x : Nibble) : (loadUpTo x s).disp = s.disp := rfl
@[simp] theorem loadUpTo_keys (x : Nibble) : (loadUpTo x s).keys = s.keys := rfl
@[simp] theorem loadUpTo_run (x : Nibble) : (loadUpTo x s).run = s.run := rfl
@[simp] theorem loadUpTo_straps (x : Nibble) : (loadUpTo x s).straps = s.straps := rfl
@[simp] theorem loadUpTo_draws (x : Nibble) : (loadUpTo x s).draws = s.draws := rfl
@[simp] theorem loadUpTo_pending (x : Nibble) : (loadUpTo x s).pending = s.pending := rfl

@[simp] theorem rndWith_i (r : Byte) (x : Nibble) (kk : Byte) : (rndWith r x kk s).i = s.i := rfl
@[simp] theorem rndWith_sp (r : Byte) (x : Nibble) (kk : Byte) : (rndWith r x kk s).sp = s.sp := rfl
@[simp] theorem rndWith_stack (r : Byte) (x : Nibble) (kk : Byte) : (rndWith r x kk s).stack = s.stack := rfl
@[simp] theorem rndWith_dt (r : Byte) (x : Nibble) (kk : Byte) : (rndWith r x kk s).dt = s.dt := rfl
@[simp] theorem rndWith_st (r : Byte) (x : Nibble) (kk : Byte) : (rndWith r x kk s).st = s.st := rfl
@[simp] theorem rndWith_mem (r : Byte) (x : Nibble) (kk : Byte) : (rndWith r x kk s).mem = s.mem := rfl
@[simp] theorem rndWith_disp (r : Byte) (x : Nibble) (kk : Byte) : (rndWith r x kk s).disp = s.disp := rfl
@[simp] theorem rndWith_keys (r : Byte) (x : Nibble) (kk : Byte) : (rndWith r x kk s).keys = s.keys := rfl
@[simp] theorem rndWith_run (r : Byte) (x : Nibble) (kk : Byte) : (rndWith r x kk s).run = s.run := rfl
@[simp] theorem rndWith_straps (r : Byte) (x : Nibble) (kk : Byte) : (rndWith r x kk s).straps = s.straps := rfl
@[simp] theorem rndWith_draws (r : Byte) (x : Nibble) (kk : Byte) : (rndWith r x kk s).draws = s.draws := rfl
@[simp] theorem rndWith_pending (r : Byte) (x : Nibble) (kk : Byte) : (rndWith r x kk s).pending = s.pending := rfl
@[simp] theorem rndWith_pc (r : Byte) (x : Nibble) (kk : Byte) : (rndWith r x kk s).pc = s.pc + 2#16 := rfl

@[simp] theorem completeKeyWait_i (x k : Nibble) : (completeKeyWait x k s).i = s.i := rfl
@[simp] theorem completeKeyWait_sp (x k : Nibble) : (completeKeyWait x k s).sp = s.sp := rfl
@[simp] theorem completeKeyWait_stack (x k : Nibble) : (completeKeyWait x k s).stack = s.stack := rfl
@[simp] theorem completeKeyWait_dt (x k : Nibble) : (completeKeyWait x k s).dt = s.dt := rfl
@[simp] theorem completeKeyWait_st (x k : Nibble) : (completeKeyWait x k s).st = s.st := rfl
@[simp] theorem completeKeyWait_mem (x k : Nibble) : (completeKeyWait x k s).mem = s.mem := rfl
@[simp] theorem completeKeyWait_disp (x k : Nibble) : (completeKeyWait x k s).disp = s.disp := rfl
@[simp] theorem completeKeyWait_keys (x k : Nibble) : (completeKeyWait x k s).keys = s.keys := rfl
@[simp] theorem completeKeyWait_straps (x k : Nibble) : (completeKeyWait x k s).straps = s.straps := rfl
@[simp] theorem completeKeyWait_draws (x k : Nibble) : (completeKeyWait x k s).draws = s.draws := rfl
@[simp] theorem completeKeyWait_pending (x k : Nibble) : (completeKeyWait x k s).pending = s.pending := rfl
@[simp] theorem completeKeyWait_pc (x k : Nibble) : (completeKeyWait x k s).pc = s.pc + 2#16 := rfl
@[simp] theorem completeKeyWait_run (x k : Nibble) : (completeKeyWait x k s).run = .running := rfl

@[simp] theorem tick60_v : (tick60 s).v = s.v := rfl
@[simp] theorem tick60_i : (tick60 s).i = s.i := rfl
@[simp] theorem tick60_pc : (tick60 s).pc = s.pc := rfl
@[simp] theorem tick60_sp : (tick60 s).sp = s.sp := rfl
@[simp] theorem tick60_stack : (tick60 s).stack = s.stack := rfl
@[simp] theorem tick60_mem : (tick60 s).mem = s.mem := rfl
@[simp] theorem tick60_disp : (tick60 s).disp = s.disp := rfl
@[simp] theorem tick60_keys : (tick60 s).keys = s.keys := rfl
@[simp] theorem tick60_run : (tick60 s).run = s.run := rfl
@[simp] theorem tick60_straps : (tick60 s).straps = s.straps := rfl
@[simp] theorem tick60_draws : (tick60 s).draws = s.draws := rfl
@[simp] theorem tick60_pending : (tick60 s).pending = s.pending := rfl
@[simp] theorem tick60_dt : (tick60 s).dt = decrement s.dt := rfl
@[simp] theorem tick60_st : (tick60 s).st = decrement s.st := rfl

@[simp] theorem keyUpdate_v (k : Half) : (keyUpdate k s).v = s.v := by unfold keyUpdate; split <;> rfl
@[simp] theorem keyUpdate_i (k : Half) : (keyUpdate k s).i = s.i := by unfold keyUpdate; split <;> rfl
@[simp] theorem keyUpdate_pc (k : Half) : (keyUpdate k s).pc = s.pc := by unfold keyUpdate; split <;> rfl
@[simp] theorem keyUpdate_sp (k : Half) : (keyUpdate k s).sp = s.sp := by unfold keyUpdate; split <;> rfl
@[simp] theorem keyUpdate_stack (k : Half) : (keyUpdate k s).stack = s.stack := by unfold keyUpdate; split <;> rfl
@[simp] theorem keyUpdate_dt (k : Half) : (keyUpdate k s).dt = s.dt := by unfold keyUpdate; split <;> rfl
@[simp] theorem keyUpdate_st (k : Half) : (keyUpdate k s).st = s.st := by unfold keyUpdate; split <;> rfl
@[simp] theorem keyUpdate_mem (k : Half) : (keyUpdate k s).mem = s.mem := by unfold keyUpdate; split <;> rfl
@[simp] theorem keyUpdate_disp (k : Half) : (keyUpdate k s).disp = s.disp := by unfold keyUpdate; split <;> rfl
@[simp] theorem keyUpdate_keys (k : Half) : (keyUpdate k s).keys = k := by unfold keyUpdate; split <;> rfl
@[simp] theorem keyUpdate_straps (k : Half) : (keyUpdate k s).straps = s.straps := by unfold keyUpdate; split <;> rfl
@[simp] theorem keyUpdate_draws (k : Half) : (keyUpdate k s).draws = s.draws := by unfold keyUpdate; split <;> rfl
@[simp] theorem keyUpdate_pending (k : Half) : (keyUpdate k s).pending = s.pending := by unfold keyUpdate; split <;> rfl

@[simp] theorem State.resetBase_v (q : Straps) : (State.resetBase q).v = Vector.replicate 16 0 := rfl
@[simp] theorem State.resetBase_i (q : Straps) : (State.resetBase q).i = 0 := rfl
@[simp] theorem State.resetBase_pc (q : Straps) : (State.resetBase q).pc = BitVec.ofNat 16 Config.entry := rfl
@[simp] theorem State.resetBase_sp (q : Straps) : (State.resetBase q).sp = 0 := rfl
@[simp] theorem State.resetBase_stack (q : Straps) : (State.resetBase q).stack = Vector.replicate 16 0 := rfl
@[simp] theorem State.resetBase_dt (q : Straps) : (State.resetBase q).dt = 0 := rfl
@[simp] theorem State.resetBase_st (q : Straps) : (State.resetBase q).st = 0 := rfl
@[simp] theorem State.resetBase_mem (q : Straps) : (State.resetBase q).mem = [] := rfl
@[simp] theorem State.resetBase_disp (q : Straps) : (State.resetBase q).disp = Vector.replicate 32 0 := rfl
@[simp] theorem State.resetBase_keys (q : Straps) : (State.resetBase q).keys = 0 := rfl
@[simp] theorem State.resetBase_run (q : Straps) : (State.resetBase q).run = .running := rfl
@[simp] theorem State.resetBase_straps (q : Straps) : (State.resetBase q).straps = q := rfl
@[simp] theorem State.resetBase_draws (q : Straps) : (State.resetBase q).draws = 0 := rfl
@[simp] theorem State.resetBase_pending (q : Straps) : (State.resetBase q).pending = [] := rfl

/-! The register accessor through the updates. -/

@[simp] theorem State.reg_setReg_same (x : Nibble) (b : Byte) : (s.setReg x b).reg x = b := by
  simp [State.reg, State.setReg]

theorem State.reg_setReg_other {x r : Nibble} (b : Byte) (h : r ≠ x) : (s.setReg x b).reg r = s.reg r := by
  simp only [State.reg, State.setReg]
  exact Vector.getElem_set_ne _ _ (fun e => h (BitVec.eq_of_toNat_eq e.symm))

theorem State.reg_setReg (x r : Nibble) (b : Byte) : (s.setReg x b).reg r = if r = x then b else s.reg r := by
  by_cases h : r = x
  · simp [h]
  · simp [h, State.reg_setReg_other s b h]

theorem State.reg_setRegFlag (x r : Nibble) (b c : Byte) :
    (s.setRegFlag x b c).reg r = if r = State.vf then c else if r = x then b else s.reg r := by
  simp only [State.setRegFlag, State.reg_setReg]

@[simp] theorem State.reg_setI (w : Half) (r : Nibble) : (s.setI w).reg r = s.reg r := rfl
@[simp] theorem State.reg_setPc (t : Half) (r : Nibble) : (s.setPc t).reg r = s.reg r := rfl
@[simp] theorem State.reg_advance (r : Nibble) : s.advance.reg r = s.reg r := rfl
@[simp] theorem State.reg_writeByte (a : Nat) (b : Byte) (r : Nibble) : (s.writeByte a b).reg r = s.reg r := rfl
@[simp] theorem State.reg_writeBytes (a : Nat) (bs : List Byte) (r : Nibble) : (s.writeBytes a bs).reg r = s.reg r := rfl
@[simp] theorem State.reg_skipIf (c : Bool) (r : Nibble) : (State.skipIf c s).reg r = s.reg r := by cases c <;> rfl
@[simp] theorem reg_setBlockIndex (x r : Nibble) : (setBlockIndex x s).reg r = s.reg r := by
  simp only [State.reg, setBlockIndex_v]

theorem reg_loadUpTo (x r : Nibble) :
    (loadUpTo x s).reg r = if r.toNat ≤ x.toNat then s.readByte (s.i.toNat + r.toNat) else s.reg r := by
  simp [State.reg, loadUpTo]

theorem reg_rndWith (b : Byte) (x : Nibble) (kk : Byte) (r : Nibble) :
    (rndWith b x kk s).reg r = if r = x then b &&& kk else s.reg r := State.reg_setReg s x r _

theorem reg_completeKeyWait (x k r : Nibble) :
    (completeKeyWait x k s).reg r = if r = x then k.zeroExtend 8 else s.reg r := State.reg_setReg s x r _

/-! The memory accessor depends on the straps and the memory alone. -/

theorem readByte_congr {s t : State} (hq : t.straps = s.straps) (hm : t.mem = s.mem) (a : Nat) :
    t.readByte a = s.readByte a := by simp only [State.readByte, hq, hm]

@[simp] theorem State.readByte_setReg (x : Nibble) (b : Byte) (a : Nat) : (s.setReg x b).readByte a = s.readByte a := rfl
@[simp] theorem State.readByte_setI (w : Half) (a : Nat) : (s.setI w).readByte a = s.readByte a := rfl
@[simp] theorem State.readByte_setPc (t : Half) (a : Nat) : (s.setPc t).readByte a = s.readByte a := rfl
@[simp] theorem State.readByte_advance (a : Nat) : s.advance.readByte a = s.readByte a := rfl
@[simp] theorem readByte_setBlockIndex (x : Nibble) (a : Nat) : (setBlockIndex x s).readByte a = s.readByte a :=
  readByte_congr (setBlockIndex_straps s x) (setBlockIndex_mem s x) a

end Sys2Proof.Machine
end

