-- ==== Sys2Proof/Laws/Memory.lean ====
section
/-! SUPPORT. Memory: a read after a write, and that every memory operation keeps the canonical form. -/

namespace Sys2Proof.Machine

namespace Memory

theorem find?_erase_same (m : Memory) (a : Nat) : find? (erase m a) a = none := by
  induction m with
  | nil => rfl
  | cons c m ih => by_cases h : a = c.1 <;> simp [erase, find?, h] <;> simpa [h] using ih

theorem find?_erase_other {a b : Nat} (h : b ≠ a) (m : Memory) : find? (erase m a) b = find? m b := by
  induction m with
  | nil => rfl
  | cons c m ih =>
    by_cases ha : a = c.1
    · simp [erase, find?, ← ha, h, ih]
    · by_cases hb : b = c.1 <;> simp [erase, find?, ha, hb, ih]

theorem find?_insert_same (m : Memory) (a : Nat) (x : Byte) : find? (insert m a x) a = some x := by
  induction m with
  | nil => simp [insert, find?]
  | cons c m ih =>
    by_cases h : a < c.1
    · simp [insert, find?, h]
    · by_cases h' : a = c.1 <;> simp [insert, find?, h, h', ih]

theorem find?_insert_other {a b : Nat} (h : b ≠ a) (m : Memory) (x : Byte) : find? (insert m a x) b = find? m b := by
  induction m with
  | nil => simp [insert, find?, h]
  | cons c m ih =>
    by_cases h1 : a < c.1
    · simp [insert, find?, h1, h]
    · by_cases h2 : a = c.1
      · simp [insert, find?, ← h2, h]
      · by_cases h3 : b = c.1 <;> simp [insert, find?, h1, h2, h3, ih]

/-- A read of the address just written gives the byte written. -/
@[simp] theorem read_write_same (q : Straps) (m : Memory) (a : Nat) (x : Byte) : read q (write q m a x) a = x := by
  unfold read write
  split
  · simp_all [find?_erase_same]
  · simp [find?_insert_same]

/-- A write leaves every other address alone. -/
theorem read_write_other (q : Straps) (m : Memory) {a b : Nat} (x : Byte) (h : b ≠ a) :
    read q (write q m a x) b = read q m b := by
  unfold read write
  split
  · rw [find?_erase_other h]
  · rw [find?_insert_other h]

theorem read_write (q : Straps) (m : Memory) (a b : Nat) (x : Byte) :
    read q (write q m a x) b = if b = a then x else read q m b := by
  by_cases h : b = a
  · simp [h]
  · simp [h, read_write_other q m x h]

/-- After successive bytes are stored from `a` upward, an address reads the byte stored there, if one was. -/
theorem read_writeBytes (q : Straps) (bs : List Byte) (m : Memory) (a b : Nat) :
    read q (writeBytes q m a bs) b =
      if h : a ≤ b ∧ b - a < bs.length then bs[b - a]'h.2 else read q m b := by
  induction bs generalizing m a with
  | nil => simp [writeBytes]
  | cons x xs ih =>
    rw [writeBytes, ih]
    by_cases h1 : b = a
    · subst h1
      rw [dif_neg (by omega), read_write_same, dif_pos (by simp)]
      simp
    · by_cases h2 : a + 1 ≤ b ∧ b - (a + 1) < xs.length
      · have h3 : a ≤ b ∧ b - a < (x :: xs).length := by simp only [List.length_cons]; omega
        rw [dif_pos h2, dif_pos h3]
        have e : b - a = (b - (a + 1)) + 1 := by omega
        simp only [e, List.getElem_cons_succ]
      · have h3 : ¬ (a ≤ b ∧ b - a < (x :: xs).length) := by simp only [List.length_cons]; omega
        rw [dif_neg h2, dif_neg h3, read_write_other q m x h1]

/-- Byte `j` of a block of stores, by its offset. -/
theorem read_writeBytes_add (q : Straps) (m : Memory) (a j : Nat) (bs : List Byte) (h : j < bs.length) :
    read q (writeBytes q m a bs) (a + j) = bs[j] := by
  rw [read_writeBytes, dif_pos ⟨Nat.le_add_right a j, by omega⟩]
  simp only [Nat.add_sub_cancel_left]

/-- A block of stores leaves every address outside it alone. -/
theorem read_writeBytes_of_not (q : Straps) (m : Memory) (a b : Nat) (bs : List Byte)
    (h : ¬ (a ≤ b ∧ b - a < bs.length)) : read q (writeBytes q m a bs) b = read q m b := by
  rw [read_writeBytes, dif_neg h]

theorem rising_mono {lo lo' : Nat} (h : lo' ≤ lo) : ∀ {m : Memory}, rising lo m = true → rising lo' m = true
  | [], _ => rfl
  | (b, w) :: m, hr => by
    simp only [rising, Bool.and_eq_true, decide_eq_true_eq] at hr ⊢
    exact ⟨by omega, hr.2⟩

theorem rising_erase {lo : Nat} (a : Nat) : ∀ {m : Memory}, rising lo m = true → rising lo (erase m a) = true
  | [], _ => rfl
  | (b, w) :: m, hr => by
    simp only [rising, Bool.and_eq_true, decide_eq_true_eq] at hr
    by_cases h : a = b
    · simp only [erase, h, if_true]
      exact rising_mono (by omega) (rising_erase b hr.2)
    · simp only [erase, h, if_false, rising, Bool.and_eq_true, decide_eq_true_eq]
      exact ⟨hr.1, rising_erase a hr.2⟩

theorem rising_insert {lo a : Nat} (x : Byte) (hlo : lo ≤ a) :
    ∀ {m : Memory}, rising lo m = true → rising lo (insert m a x) = true
  | [], _ => by simp [insert, rising, hlo]
  | (b, w) :: m, hr => by
    simp only [rising, Bool.and_eq_true, decide_eq_true_eq] at hr
    by_cases h1 : a < b
    · simp only [insert, h1, if_true, rising, Bool.and_eq_true, decide_eq_true_eq]
      exact ⟨hlo, by omega, hr.2⟩
    · by_cases h2 : a = b
      · subst h2
        simp only [insert, Nat.lt_irrefl, if_false, if_true, rising, Bool.and_eq_true, decide_eq_true_eq]
        exact hr
      · simp only [insert, h1, if_false, h2, rising, Bool.and_eq_true, decide_eq_true_eq]
        exact ⟨hr.1, rising_insert x (by omega) hr.2⟩

theorem mem_erase {a : Nat} {c : Host.Cell} : ∀ {m : Memory}, c ∈ erase m a → c ∈ m
  | (b, w) :: m, h => by
    by_cases e : a = b
    · simp only [erase, e, if_true] at h
      exact List.mem_cons_of_mem _ (mem_erase h)
    · simp only [erase, e, if_false, List.mem_cons] at h ⊢
      exact h.imp_right mem_erase

theorem mem_insert {a : Nat} {x : Byte} {c : Host.Cell} : ∀ {m : Memory}, c ∈ insert m a x → c = (a, x) ∨ c ∈ m
  | [], h => by simpa [insert] using h
  | (b, w) :: m, h => by
    by_cases h1 : a < b
    · simpa [insert, h1] using h
    · by_cases h2 : a = b
      · subst h2
        simp only [insert, Nat.lt_irrefl, if_false, if_true, List.mem_cons] at h ⊢
        exact h.imp_right Or.inr
      · simp only [insert, h1, if_false, h2, List.mem_cons] at h ⊢
        exact h.elim (fun e => .inr (.inl e)) fun e => (mem_insert e).imp_right .inr

/-- A write within the address space keeps the canonical form. -/
theorem wf_write {q : Straps} {m : Memory} {a : Nat} (x : Byte) (ha : a < Config.memSize) (h : wf q m = true) :
    wf q (write q m a x) = true := by
  simp only [wf, Bool.and_eq_true, List.all_eq_true, decide_eq_true_eq] at h ⊢
  unfold write
  split
  · exact ⟨rising_erase a h.1, fun c hc => h.2 c (mem_erase hc)⟩
  · next hx => exact ⟨rising_insert x (Nat.zero_le a) h.1, fun c hc => (mem_insert hc).elim (fun e => by subst e; exact ⟨ha, hx⟩) (h.2 c)⟩

/-- Successive writes within the address space keep the canonical form. -/
theorem wf_writeBytes {q : Straps} (bs : List Byte) {m : Memory} {a : Nat} (ha : a + bs.length ≤ Config.memSize)
    (h : wf q m = true) : wf q (writeBytes q m a bs) = true := by
  induction bs generalizing m a with
  | nil => exact h
  | cons x xs ih =>
    simp only [List.length_cons] at ha
    exact ih (by omega) (wf_write x (by omega) h)

/-- The memory of reset is in the canonical form under any straps. -/
theorem wf_nil (q : Straps) : wf q [] = true := rfl

end Memory

/-- The memory of `State.reset` is in the canonical form. -/
theorem reset_memory_wf : Memory.wf State.reset.straps State.reset.mem = true := Memory.wf_nil _

/-- A byte of memory after one store. -/
theorem State.readByte_writeByte (s : State) (a b : Nat) (x : Byte) :
    (s.writeByte a x).readByte b = if b = a then x else s.readByte b := Memory.read_write _ _ _ _ _

/-- A byte of memory after a block of stores. -/
theorem State.readByte_writeBytes (s : State) (a b : Nat) (bs : List Byte) :
    (s.writeBytes a bs).readByte b =
      if h : a ≤ b ∧ b - a < bs.length then bs[b - a]'h.2 else s.readByte b := Memory.read_writeBytes _ _ _ _ _

end Sys2Proof.Machine
end

