-- ==== Sys2Proof/Laws/Ops.lean ====
section
/-! SUPPORT. One lemma for each shared operation that says once everything it can do; later proofs cite it in place of
unfolding the operation. -/

namespace Sys2Proof.Machine

/-- Fault entry answers a next state in which the run state alone differs (spec/60_exceptions.md R156). -/
theorem raise_eq (k : Fault) (s : State) : raise k s = .next { s with run := .halted k } := rfl

/-- A push answers exactly below sixteen entries: the entry at `SP` written, `SP` one more (spec/10_state.md R24). -/
theorem push_eq_some {s t : State} {a : Half} :
    s.push a = some t ↔ ∃ h : s.sp.val < 16,
      t = { s with stack := s.stack.set s.sp.val a h, sp := ⟨s.sp.val + 1, by omega⟩ } := by
  unfold State.push
  split <;> simp_all [eq_comm]

/-- A push answers nothing exactly at sixteen entries. -/
theorem push_eq_none {s : State} {a : Half} : s.push a = none ↔ s.sp.val = 16 := by
  unfold State.push
  split <;> simp <;> omega

/-- A pop answers exactly above no entry: the newest entry, and the state with `SP` one less and the array as it was
(spec/10_state.md R24). -/
theorem pop_eq_some {s t : State} {a : Half} :
    s.pop = some (a, t) ↔ ∃ h : 0 < s.sp.val,
      a = s.stack[s.sp.val - 1]'(by omega) ∧ t = { s with sp := ⟨s.sp.val - 1, by omega⟩ } := by
  unfold State.pop
  split <;> simp_all [eq_comm]

/-- A pop answers nothing exactly at no entry. -/
theorem pop_eq_none {s : State} : s.pop = none ↔ s.sp.val = 0 := by
  unfold State.pop
  split <;> simp <;> omega

/-- The range test says that some byte is accessed and the last one lies above 0xFFF (spec/42_index_memory.md R122). -/
theorem outOfRange_iff {base count : Nat} : outOfRange base count = true ↔ 0 < count ∧ 0x0FFF < base + (count - 1) := by
  rw [outOfRange, Bool.and_eq_true, decide_eq_true_eq, decide_eq_true_eq, Config.maxAddr]

theorem outOfRange_eq_false {base count : Nat} : outOfRange base count = false ↔ count = 0 ∨ base + count ≤ 4096 := by
  rw [← Bool.not_eq_true, outOfRange_iff]
  omega

/-- `I` stays within twelve bits at every write (spec/10_state.md R22). -/
theorem setI_le (s : State) (w : Half) : (s.setI w).i.toNat ≤ 0x0FFF := by
  rw [State.setI_i, BitVec.toNat_and]
  exact Nat.and_le_right

theorem addr16_toNat (nnn : Addr) : (addr16 nnn).toNat = nnn.toNat := by
  have := nnn.isLt
  simp [addr16]
  omega

@[simp] theorem length_readBytes (s : State) (a n : Nat) : (s.readBytes a n).length = n := by simp [State.readBytes]

@[simp] theorem getElem_readBytes (s : State) (a n j : Nat) (h : j < (s.readBytes a n).length) :
    (s.readBytes a n)[j] = s.readByte (a + j) := by simp [State.readBytes]

@[simp] theorem length_regsUpTo (x : Nibble) (s : State) : (regsUpTo x s).length = x.toNat + 1 := by simp [regsUpTo]

@[simp] theorem getElem_regsUpTo (x : Nibble) (s : State) (j : Nat) (h : j < (regsUpTo x s).length) :
    (regsUpTo x s)[j] = s.reg (BitVec.ofNat 4 j) := by simp [regsUpTo]

@[simp] theorem length_bcdDigits (b : Byte) : (bcdDigits b).length = 3 := rfl

/-- Under `MEM_I_INC = NONE` the block transfers leave `I` alone, under the other two they write it masked
(spec/42_index_memory.md R125). -/
theorem setBlockIndex_i (x : Nibble) (s : State) :
    (setBlockIndex x s).i =
      match s.straps.memIInc with
      | .none => s.i
      | .x => (s.i + x.zeroExtend 16) &&& 0x0FFF#16
      | .xPlus1 => (s.i + x.zeroExtend 16 + 1#16) &&& 0x0FFF#16 := by
  unfold setBlockIndex blockIndexAfter
  cases h : s.straps.memIInc <;> simp [State.setI]

/-- The lowest key is pressed, and no lower-numbered key is (spec/45_input.md R144). -/
theorem lowestKey_eq_some {k : Half} {j : Nibble} :
    lowestKey k = some j ↔ k.getLsbD j.toNat = true ∧ ∀ l : Nat, l < j.toNat → k.getLsbD l = false := by
  unfold lowestKey
  rw [Option.map_eq_some_iff]
  constructor
  · rintro ⟨n, hn, rfl⟩
    rw [List.find?_range_eq_some] at hn
    obtain ⟨h1, h2, h3⟩ := hn
    have h2 : n < 16 := by simpa using h2
    have e : (BitVec.ofNat 4 n).toNat = n := by simp; omega
    rw [e]
    exact ⟨h1, fun l hl => by simpa using h3 l hl⟩
  · rintro ⟨h1, h2⟩
    refine ⟨j.toNat, ?_, by simp⟩
    rw [List.find?_range_eq_some]
    exact ⟨h1, by simpa using j.isLt, fun l hl => by simp [h2 l hl]⟩

/-- There is a lowest key exactly when some key is pressed. -/
theorem lowestKey_eq_none {k : Half} : lowestKey k = none ↔ k = 0 := by
  unfold lowestKey
  rw [Option.map_eq_none_iff, List.find?_range_eq_none]
  constructor
  · intro h
    apply BitVec.eq_of_getLsbD_eq
    intro j hj
    simpa using h j hj
  · rintro rfl j _
    simp

/-- Bit `col` of a sprite row's mask is set exactly when a set bit of the sprite byte lands on that column
(spec/43_display.md R131). -/
theorem getLsbD_spriteMask (b : Byte) (px col : Nat) (hc : col < 64) :
    (spriteMask b px).getLsbD col = true ↔ ∃ c, c < 8 ∧ b.getLsbD (7 - c) = true ∧ (px + c) % 64 = col := by
  have key : ∀ (l : List Nat) (m : BitVec 64),
      (l.foldl (fun m c => if b.getLsbD (7 - c) then m ||| (1#64 <<< ((px + c) % 64)) else m) m).getLsbD col = true ↔
        m.getLsbD col = true ∨ ∃ c ∈ l, b.getLsbD (7 - c) = true ∧ (px + c) % 64 = col := by
    intro l
    induction l with
    | nil => simp
    | cons c l ih =>
      intro m
      rw [List.foldl_cons, ih]
      by_cases hb : b.getLsbD (7 - c) = true
      · have one : (1#64 <<< ((px + c) % 64)).getLsbD col = true ↔ (px + c) % 64 = col := by
          rw [BitVec.getLsbD_shiftLeft]
          simp only [hc, decide_true, Bool.true_and, Bool.and_eq_true, Bool.not_eq_true', decide_eq_false_iff_not,
            BitVec.getLsbD_one, decide_eq_true_eq]
          omega
        simp only [hb, if_true, BitVec.getLsbD_or, Bool.or_eq_true, one, List.mem_cons, exists_eq_or_imp, true_and, or_assoc]
      · simp [hb]
  simp [spriteMask, key]

/-- A reset with an image that fits leaves the reset state with the image stored (spec/70_reset_and_hazards.md R180, R181). -/
theorem resetWith_of_fits {image : List Byte} (h : image.length ≤ Config.imageMax) (q : Straps) (n : Nat) (es : List Event) :
    resetWith image q n es =
      { State.resetBase q with mem := Memory.writeBytes q [] Config.entry image, draws := n, pending := es } := if_pos h

/-- A reset with an oversize image leaves a halted machine whose image region holds free values (R183). -/
theorem resetWith_of_oversize {image : List Byte} (h : ¬ image.length ≤ Config.imageMax) (q : Straps) (n : Nat)
    (es : List Event) :
    resetWith image q n es =
      { State.resetBase q with
        mem := Memory.writeBytes q [] Config.entry (oversizeBytes n)
        run := .halted .imageTooLarge
        draws := n + 1
        pending := es } := if_neg h

theorem length_oversizeBytes (n : Nat) : (oversizeBytes n).length = Config.imageMax := by
  rw [oversizeBytes, List.length_map, List.length_range]

/-- `State.reset` is the reset with the empty image under the straps of `Config.resetStraps`. -/
theorem reset_eq_resetWith : State.reset = resetWith [] Config.resetStraps 0 [] := rfl

/-- A reset of either kind leaves memory in its canonical form. -/
theorem resetWith_memory_wf (image : List Byte) (q : Straps) (n : Nat) (es : List Event) :
    Memory.wf (resetWith image q n es).straps (resetWith image q n es).mem = true := by
  by_cases h : image.length ≤ Config.imageMax
  · rw [resetWith_of_fits h]
    exact Memory.wf_writeBytes _ (by simp only [Config.entry, Config.memSize, Config.imageMax] at *; omega) (Memory.wf_nil q)
  · rw [resetWith_of_oversize h]
    have hl : Config.entry + (oversizeBytes n).length ≤ Config.memSize := by
      rw [length_oversizeBytes, Config.entry, Config.imageMax, Config.memSize]
    have hw := Memory.wf_writeBytes (q := q) (oversizeBytes n) hl (Memory.wf_nil q)
    simpa only [State.resetBase_straps] using hw

end Sys2Proof.Machine
end

