-- ==== Sys2Proof/Laws/PerInstr.lean ====
section
/-! SUPPORT. Families of statements about the instructions as syntax, one lemma for each constructor.

`EncodingRow`: the word of every instruction is matched by its own row of the opcode table, `ins & mask = match`
(spec/30_encoding.md R74). -/

namespace Sys2Proof.Laws.EncodingRow

/-- The mask and the match of the row of an instruction, as R74 prints them. -/
def row : Instr → Half × Half
  | .cls => (0xFFFF, 0x00E0)
  | .ret => (0xFFFF, 0x00EE)
  | .jp _ => (0xF000, 0x1000)
  | .call _ => (0xF000, 0x2000)
  | .seImm _ _ => (0xF000, 0x3000)
  | .sneImm _ _ => (0xF000, 0x4000)
  | .seReg _ _ => (0xF00F, 0x5000)
  | .ldImm _ _ => (0xF000, 0x6000)
  | .addImm _ _ => (0xF000, 0x7000)
  | .ldReg _ _ => (0xF00F, 0x8000)
  | .orReg _ _ => (0xF00F, 0x8001)
  | .andReg _ _ => (0xF00F, 0x8002)
  | .xorReg _ _ => (0xF00F, 0x8003)
  | .addReg _ _ => (0xF00F, 0x8004)
  | .subReg _ _ => (0xF00F, 0x8005)
  | .shr _ _ => (0xF00F, 0x8006)
  | .subnReg _ _ => (0xF00F, 0x8007)
  | .shl _ _ => (0xF00F, 0x800E)
  | .sneReg _ _ => (0xF00F, 0x9000)
  | .ldI _ => (0xF000, 0xA000)
  | .jpOff _ => (0xF000, 0xB000)
  | .rnd _ _ => (0xF000, 0xC000)
  | .drw _ _ _ => (0xF000, 0xD000)
  | .skp _ => (0xF0FF, 0xE09E)
  | .sknp _ => (0xF0FF, 0xE0A1)
  | .ldVxDt _ => (0xF0FF, 0xF007)
  | .ldVxK _ => (0xF0FF, 0xF00A)
  | .ldDtVx _ => (0xF0FF, 0xF015)
  | .ldStVx _ => (0xF0FF, 0xF018)
  | .addIVx _ => (0xF0FF, 0xF01E)
  | .ldF _ => (0xF0FF, 0xF029)
  | .ldB _ => (0xF0FF, 0xF033)
  | .storeRegs _ => (0xF0FF, 0xF055)
  | .loadRegs _ => (0xF0FF, 0xF065)

/-- The word of `i` is matched by the row of `i`. -/
def Statement (i : Instr) : Prop := encode i &&& (row i).1 = (row i).2

/-- The mask 0xF000 keeps the top nibble of a word of format `NNN`. -/
theorem nnn_mask (op : Nibble) (nnn : Addr) : formatNNN op nnn &&& 0xF000 = formatNNN op 0 := by
  have h := formatNNN_and op 0xF nnn 0
  rw [show op &&& 0xF = op from BitVec.and_allOnes, show nnn &&& 0 = 0 from BitVec.and_zero] at h
  exact h

/-- The mask 0xF000 keeps the top nibble of a word of format `XKK`. -/
theorem xkk_mask (op x : Nibble) (kk : Byte) : formatXKK op x kk &&& 0xF000 = formatXKK op 0 0 := by
  have h := formatXKK_and op 0xF x 0 kk 0
  rw [show op &&& 0xF = op from BitVec.and_allOnes, show x &&& 0 = 0 from BitVec.and_zero,
    show kk &&& 0 = 0 from BitVec.and_zero] at h
  exact h

/-- The mask 0xF0FF keeps all but the register selector of a word of format `XFF`. -/
theorem xff_mask (op x : Nibble) (kk : Byte) : formatXKK op x kk &&& 0xF0FF = formatXKK op 0 kk := by
  have h := formatXKK_and op 0xF x 0 kk 0xFF
  rw [show op &&& 0xF = op from BitVec.and_allOnes, show x &&& 0 = 0 from BitVec.and_zero,
    show kk &&& 0xFF = kk from BitVec.and_allOnes] at h
  exact h

/-- The mask 0xF00F keeps the first and the last nibble of a word of format `XYF`. -/
theorem xyf_mask (op x y n : Nibble) : formatXYN op x y n &&& 0xF00F = formatXYN op 0 0 n := by
  have h := formatXYN_and op 0xF x 0 y 0 n 0xF
  rw [show op &&& 0xF = op from BitVec.and_allOnes, show x &&& 0 = 0 from BitVec.and_zero,
    show y &&& 0 = 0 from BitVec.and_zero, show n &&& 0xF = n from BitVec.and_allOnes] at h
  exact h

/-- The mask 0xF000 keeps the top nibble of a word of format `XYN`. -/
theorem xyn_mask (op x y n : Nibble) : formatXYN op x y n &&& 0xF000 = formatXYN op 0 0 0 := by
  have h := formatXYN_and op 0xF x 0 y 0 n 0
  rw [show op &&& 0xF = op from BitVec.and_allOnes, show x &&& 0 = 0 from BitVec.and_zero,
    show y &&& 0 = 0 from BitVec.and_zero, show n &&& 0 = 0 from BitVec.and_zero] at h
  exact h

theorem cls : Statement .cls := rfl
theorem ret : Statement .ret := rfl
theorem jp (nnn : Addr) : Statement (.jp nnn) := (nnn_mask _ _).trans rfl
theorem call (nnn : Addr) : Statement (.call nnn) := (nnn_mask _ _).trans rfl
theorem seImm (x : Nibble) (kk : Byte) : Statement (.seImm x kk) := (xkk_mask _ _ _).trans rfl
theorem sneImm (x : Nibble) (kk : Byte) : Statement (.sneImm x kk) := (xkk_mask _ _ _).trans rfl
theorem seReg (x y : Nibble) : Statement (.seReg x y) := (xyf_mask _ _ _ _).trans rfl
theorem ldImm (x : Nibble) (kk : Byte) : Statement (.ldImm x kk) := (xkk_mask _ _ _).trans rfl
theorem addImm (x : Nibble) (kk : Byte) : Statement (.addImm x kk) := (xkk_mask _ _ _).trans rfl
theorem ldReg (x y : Nibble) : Statement (.ldReg x y) := (xyf_mask _ _ _ _).trans rfl
theorem orReg (x y : Nibble) : Statement (.orReg x y) := (xyf_mask _ _ _ _).trans rfl
theorem andReg (x y : Nibble) : Statement (.andReg x y) := (xyf_mask _ _ _ _).trans rfl
theorem xorReg (x y : Nibble) : Statement (.xorReg x y) := (xyf_mask _ _ _ _).trans rfl
theorem addReg (x y : Nibble) : Statement (.addReg x y) := (xyf_mask _ _ _ _).trans rfl
theorem subReg (x y : Nibble) : Statement (.subReg x y) := (xyf_mask _ _ _ _).trans rfl
theorem shr (x y : Nibble) : Statement (.shr x y) := (xyf_mask _ _ _ _).trans rfl
theorem subnReg (x y : Nibble) : Statement (.subnReg x y) := (xyf_mask _ _ _ _).trans rfl
theorem shl (x y : Nibble) : Statement (.shl x y) := (xyf_mask _ _ _ _).trans rfl
theorem sneReg (x y : Nibble) : Statement (.sneReg x y) := (xyf_mask _ _ _ _).trans rfl
theorem ldI (nnn : Addr) : Statement (.ldI nnn) := (nnn_mask _ _).trans rfl
theorem jpOff (nnn : Addr) : Statement (.jpOff nnn) := (nnn_mask _ _).trans rfl
theorem rnd (x : Nibble) (kk : Byte) : Statement (.rnd x kk) := (xkk_mask _ _ _).trans rfl
theorem drw (x y n : Nibble) : Statement (.drw x y n) := (xyn_mask _ _ _ _).trans rfl
theorem skp (x : Nibble) : Statement (.skp x) := (xff_mask _ _ _).trans rfl
theorem sknp (x : Nibble) : Statement (.sknp x) := (xff_mask _ _ _).trans rfl
theorem ldVxDt (x : Nibble) : Statement (.ldVxDt x) := (xff_mask _ _ _).trans rfl
theorem ldVxK (x : Nibble) : Statement (.ldVxK x) := (xff_mask _ _ _).trans rfl
theorem ldDtVx (x : Nibble) : Statement (.ldDtVx x) := (xff_mask _ _ _).trans rfl
theorem ldStVx (x : Nibble) : Statement (.ldStVx x) := (xff_mask _ _ _).trans rfl
theorem addIVx (x : Nibble) : Statement (.addIVx x) := (xff_mask _ _ _).trans rfl
theorem ldF (x : Nibble) : Statement (.ldF x) := (xff_mask _ _ _).trans rfl
theorem ldB (x : Nibble) : Statement (.ldB x) := (xff_mask _ _ _).trans rfl
theorem storeRegs (x : Nibble) : Statement (.storeRegs x) := (xff_mask _ _ _).trans rfl
theorem loadRegs (x : Nibble) : Statement (.loadRegs x) := (xff_mask _ _ _).trans rfl

end Sys2Proof.Laws.EncodingRow
end

