-- ==== Sys2Proof/Tests/Slice0.lean ====
section
/-! SUPPORT. Tests of one step or one event, with expected values from spec/95_test_vectors.md (each names its vector); the
smoke test of WellFormed; words written out bit by bit from the patterns of spec/30_encoding.md R74; and, for every statement
with hypotheses, a named witness that meets them. -/

namespace Sys2Proof.Tests

open Sys2Proof.Machine Sys2Proof.Spec

/-- The straps of the vectors (spec/95_test_vectors.md, conventions), with `BNNN_OFFSET = V0`. -/
def straps0 : Straps := Config.referenceStraps .v0 ⟨700, by decide⟩

/-- The start state of the vectors. -/
def s0 : State := State.resetBase straps0

/-- The start state under other straps. -/
def under (q : Straps) : State := { s0 with straps := q }

/-- One `Step` with the word placed at `PC`. -/
def after (s : State) (w : Nat) : State :=
  match step (s.withFetchWord 16 w) with
  | .next t => t
  | .fault _ | .refused _ => s

/-- The state after one event. -/
def afterEvent (e : Event) (s : State) : State :=
  match handle e s with
  | .next t => t
  | .fault _ | .refused _ => s

/-- `V[x]` changed. -/
def v (x : Nibble) (b : Byte) (s : State) : State := s.setReg x b

/-- `I` changed. -/
def at' (i : Half) (s : State) : State := { s with i := i }

/-- `PC` changed. -/
def from' (pc : Half) (s : State) : State := { s with pc := pc }

/-- Pixels set. -/
def dots (ps : List (Fin 32 × Fin 64)) (s : State) : State :=
  { s with disp := ps.foldl (fun d p => d.set p.1.val (d[p.1] ||| (1#64 <<< p.2.val)) p.1.isLt) s.disp }

/-! ### WellFormed: the one check, an ill-formed term that it refuses -/

theorem smoke_wf_refuses_fx1e_without_the_strap : (Instr.addIVx 3).wf straps0 = false := by decide
theorem smoke_wf_accepts_fx1e_with_the_strap : (Instr.addIVx 3).wf { straps0 with xFx1e := true } = true := by decide
theorem smoke_wf_accepts_the_others : (Instr.cls).wf straps0 = true ∧ (Instr.drw 1 2 3).wf straps0 = true := by decide

/-! ### Decoding: a word of every row, written out from its pattern -/

theorem test_decode_flow :
    decode false 0b0000_0000_1110_1110 = .ok .ret ∧ decode false 0b0001_0010_0011_0100 = .ok (.jp 0x234) ∧
    decode false 0b0010_1010_1011_1100 = .ok (.call 0xABC) ∧ decode false 0b0011_0011_0010_1010 = .ok (.seImm 3 0x2A) ∧
    decode false 0b0100_0011_0010_1010 = .ok (.sneImm 3 0x2A) ∧ decode false 0b0101_0001_0010_0000 = .ok (.seReg 1 2) ∧
    decode false 0b1001_0001_0010_0000 = .ok (.sneReg 1 2) := by decide

theorem test_decode_load_arith :
    decode false 0b0110_0000_0000_0101 = .ok (.ldImm 0 5) ∧ decode false 0b0111_0010_0000_0011 = .ok (.addImm 2 3) ∧
    decode false 0b1000_0001_0010_0000 = .ok (.ldReg 1 2) ∧ decode false 0b1000_0001_0010_0001 = .ok (.orReg 1 2) ∧
    decode false 0b1000_0001_0010_0010 = .ok (.andReg 1 2) ∧ decode false 0b1000_0001_0010_0011 = .ok (.xorReg 1 2) ∧
    decode false 0b1000_0001_0010_0100 = .ok (.addReg 1 2) ∧ decode false 0b1000_0001_0010_0101 = .ok (.subReg 1 2) ∧
    decode false 0b1000_0001_0010_0110 = .ok (.shr 1 2) ∧ decode false 0b1000_0001_0010_0111 = .ok (.subnReg 1 2) ∧
    decode false 0b1000_0001_0010_1110 = .ok (.shl 1 2) := by decide

theorem test_decode_index_memory :
    decode false 0b1010_0010_1111_0000 = .ok (.ldI 0x2F0) ∧ decode false 0b1011_0011_0000_0000 = .ok (.jpOff 0x300) ∧
    decode true 0b1111_0001_0001_1110 = .ok (.addIVx 1) ∧ decode false 0b1111_0100_0010_1001 = .ok (.ldF 4) ∧
    decode false 0b1111_0101_0011_0011 = .ok (.ldB 5) ∧ decode false 0b1111_0010_0101_0101 = .ok (.storeRegs 2) ∧
    decode false 0b1111_0001_0110_0101 = .ok (.loadRegs 1) := by decide

theorem test_decode_display_random :
    decode false 0b0000_0000_1110_0000 = .ok .cls ∧ decode false 0b1101_0001_0010_0011 = .ok (.drw 1 2 3) ∧
    decode false 0b1100_0001_0000_1111 = .ok (.rnd 1 0x0F) := by decide

theorem test_decode_input_timers :
    decode false 0b1110_0010_1001_1110 = .ok (.skp 2) ∧ decode false 0b1110_0010_1010_0001 = .ok (.sknp 2) ∧
    decode false 0b1111_0011_0000_1010 = .ok (.ldVxK 3) ∧ decode false 0b1111_0011_0000_0111 = .ok (.ldVxDt 3) ∧
    decode false 0b1111_0011_0001_0101 = .ok (.ldDtVx 3) ∧ decode false 0b1111_0011_0001_1000 = .ok (.ldStVx 3) := by decide

/-- TI4, TI6, TI8, TI17, TI18: words next to valid ones. -/
theorem test_decode_invalid :
    decode true 0x00FF = .error (.invalidOpcode 0x00FF) ∧ decode true 0x512F = .error (.invalidOpcode 0x512F) ∧
    decode true 0x800D = .error (.invalidOpcode 0x800D) ∧ decode true 0xF085 = .error (.invalidOpcode 0xF085) ∧
    decode true 0xF030 = .error (.invalidOpcode 0xF030) := by decide

/-- spec/opcode_table.json numbers bit 0 as the least significant of the 16; longer words are no instruction. -/
theorem test_decode_table_word : decodeTableWord 16 0x8014 = some (.addReg 0 1) ∧ decodeTableWord 16 0xF11E = some (.addIVx 1) ∧
    decodeTableWord 16 0x0000 = none ∧ decodeTableWord 32 0x8014 = none := by decide

/-! ### Fetch -/

/-- TF0: the byte at the lower address is the high byte. -/
theorem test_fetch_big_endian : fetchWord ((s0.writeByte 0x200 0x12).writeByte 0x201 0x34) = 0x1234 := by decide
/-- TF1, TF2: an odd `PC` is legal, and 0xFFE is the last address an instruction is fetched from. -/
theorem test_fetch_odd_and_last : (after (from' 0x201 s0) 0x6007).pc = 0x203 ∧ (after (from' 0xFFE s0) 0x6001).pc = 0x1000 := by decide
/-- The first step after `State.reset` with a word placed runs that word: it is fetched from 0x200. -/
theorem test_reset_runs_the_placed_word : (after State.reset 0x6105).reg 1 = 0x05 ∧ (after State.reset 0x6105).pc = 0x202 := by decide
/-- With a word placed, a `Step` comes before the events that were pending. -/
theorem test_placed_word_comes_first :
    (after { s0 with pending := [.tick60] } 0x6105).reg 1 = 0x05 ∧
    (after { s0 with pending := [.tick60] } 0x6105).pending = [.tick60] := by decide

/-! ### Control flow -/

/-- T10, T11. -/
theorem test_jp : (after s0 0x1234).pc = 0x234 ∧ (after s0 0x1200).pc = 0x200 := by decide
/-- T13, T14, T15. -/
theorem test_call : (after s0 0x2ABC).pc = 0xABC ∧ (after s0 0x2ABC).sp = 1 ∧ (after s0 0x2ABC).stack[0] = 0x0202 ∧
    (after { s0 with sp := 15 } 0x2300).sp = 16 ∧ (after { s0 with sp := 15 } 0x2300).stack[15] = 0x0202 := by decide
theorem test_call_overflow : (after { s0 with sp := 16 } 0x2300).run = .halted .stackOverflow ∧
    (after { s0 with sp := 16 } 0x2300).pc = 0x200 ∧ (after { s0 with sp := 16 } 0x2300).sp = 16 := by decide
/-- T17, T18. -/
theorem test_ret :
    let s := { s0 with sp := 2, stack := (s0.stack.set 0 0x0202).set 1 0x030A }
    (after s 0x00EE).pc = 0x30A ∧ (after s 0x00EE).sp = 1 ∧ (after s 0x00EE).stack[1] = 0x030A := by decide
theorem test_ret_underflow : (after s0 0x00EE).run = .halted .stackUnderflow ∧ (after s0 0x00EE).pc = 0x200 := by decide
/-- T19, T20. -/
theorem test_se_imm : (after (v 3 0x2A s0) 0x332A).pc = 0x204 ∧ (after (v 3 0x2B s0) 0x332A).pc = 0x202 := by decide
/-- T21, T22. -/
theorem test_sne_imm : (after (v 3 0x2A s0) 0x432A).pc = 0x202 ∧ (after (v 3 0x2B s0) 0x432A).pc = 0x204 := by decide
/-- T23, T24. -/
theorem test_se_reg : (after (v 1 7 (v 2 7 s0)) 0x5120).pc = 0x204 ∧ (after (v 1 7 (v 2 8 s0)) 0x5120).pc = 0x202 := by decide
/-- T26, T27. -/
theorem test_sne_reg : (after (v 1 7 (v 2 8 s0)) 0x9120).pc = 0x204 ∧ (after (v 1 7 (v 2 7 s0)) 0x9120).pc = 0x202 := by decide
/-- T29: a taken skip past the end of memory. -/
theorem test_skip_past_the_end : (after (from' 0xFFE s0) 0x3000).pc = 0x1002 := by decide

/-! ### Loads and arithmetic -/

/-- T40, T41. -/
theorem test_ld_imm : (after s0 0x6005).reg 0 = 0x05 ∧ (after s0 0x6FFF).reg 15 = 0xFF := by decide
/-- T42, T43. -/
theorem test_add_imm : (after (v 2 0xFE s0) 0x7203).reg 2 = 0x01 ∧ (after (v 2 0xFE s0) 0x7203).reg 15 = 0x00 ∧
    (after (v 15 1 s0) 0x7FFF).reg 15 = 0x00 := by decide
/-- T44. -/
theorem test_ld_reg : (after (v 1 0x37 s0) 0x8010).reg 0 = 0x37 := by decide
/-- T45, T46, T47: the result, and VF as it was. -/
theorem test_or : (after (v 0 0x0F (v 1 0xF0 (v 15 1 s0))) 0x8011).reg 0 = 0xFF ∧
    (after (v 0 0x0F (v 1 0xF0 (v 15 1 s0))) 0x8011).reg 15 = 1 := by decide
theorem test_and : (after (v 0 0x3C (v 1 0x0F (v 15 1 s0))) 0x8012).reg 0 = 0x0C ∧
    (after (v 0 0x3C (v 1 0x0F (v 15 1 s0))) 0x8012).reg 15 = 1 := by decide
theorem test_xor : (after (v 0 0xFF (v 1 0x0F (v 15 1 s0))) 0x8013).reg 0 = 0xF0 ∧
    (after (v 0 0xFF (v 1 0x0F (v 15 1 s0))) 0x8013).reg 15 = 1 := by decide
/-- T51, T54. -/
theorem test_add_reg : (after (v 0 0xFF (v 1 0xFF s0)) 0x8014).reg 0 = 0xFE ∧ (after (v 0 0xFF (v 1 0xFF s0)) 0x8014).reg 15 = 1 := by decide
theorem test_add_reg_vf : (after (v 15 0xF0 (v 1 0x20 s0)) 0x8F14).reg 15 = 1 ∧
    (after (v 0 0x10 (v 15 1 s0)) 0x80F4).reg 0 = 0x11 := by decide
/-- T56, T58. -/
theorem test_sub : (after (v 0 0x10 (v 1 0x20 (v 15 1 s0))) 0x8015).reg 0 = 0xF0 ∧
    (after (v 0 0x10 (v 1 0x20 (v 15 1 s0))) 0x8015).reg 15 = 0 := by decide
theorem test_sub_equal : (after (v 0 5 (v 1 5 s0)) 0x8015).reg 0 = 0 ∧ (after (v 0 5 (v 1 5 s0)) 0x8015).reg 15 = 1 := by decide
/-- T61, T62. -/
theorem test_subn : (after (v 0 0x10 (v 1 0x20 s0)) 0x8017).reg 0 = 0x10 ∧ (after (v 0 0x10 (v 1 0x20 s0)) 0x8017).reg 15 = 1 := by decide
theorem test_subn_borrow : (after (v 0 0x20 (v 1 0x10 (v 15 1 s0))) 0x8017).reg 0 = 0xF0 ∧
    (after (v 0 0x20 (v 1 0x10 (v 15 1 s0))) 0x8017).reg 15 = 0 := by decide
/-- T64, T65. -/
theorem test_shr_vx : (after (v 2 5 (v 3 8 s0)) 0x8236).reg 2 = 2 ∧ (after (v 2 5 (v 3 8 s0)) 0x8236).reg 15 = 1 := by decide
theorem test_shr_vy :
    let s := v 2 5 (v 3 8 (under { straps0 with shiftSource := .vy }))
    (after s 0x8236).reg 2 = 4 ∧ (after s 0x8236).reg 15 = 0 ∧ (after s 0x8236).reg 3 = 8 := by decide
/-- T69, T72. -/
theorem test_shl_vx : (after (v 2 0x81 (v 3 0x40 s0)) 0x823E).reg 2 = 2 ∧ (after (v 2 0x81 (v 3 0x40 s0)) 0x823E).reg 15 = 1 := by decide
theorem test_shl_vy :
    let s := v 15 0x80 (v 2 1 (under { straps0 with shiftSource := .vy }))
    (after s 0x82FE).reg 2 = 0 ∧ (after s 0x82FE).reg 15 = 1 := by decide

/-! ### Index and memory -/

/-- T80, T81. -/
theorem test_ld_i : (after s0 0xA2F0).i = 0x2F0 ∧ (after s0 0xAFFF).i = 0xFFF := by decide
/-- T82a, T82b, T82c. -/
theorem test_jp_off :
    let s := fun q => v 0 4 (v 3 0x10 (at' 0x020 (under { straps0 with bnnnOffset := q })))
    (after (s .v0) 0xB300).pc = 0x304 ∧ (after (s .vx) 0xB300).pc = 0x310 ∧ (after (s .i) 0xB300).pc = 0x320 := by decide
/-- T83: the largest `PC` any rule can write. -/
theorem test_jp_off_largest : (after (at' 0xFFF (under { straps0 with bnnnOffset := .i })) 0xBFFF).pc = 0x1FFE := by decide
/-- T103, T104. -/
theorem test_add_i : (after (v 1 1 (at' 0xFFF (under { straps0 with xFx1e := true }))) 0xF11E).i = 0x000 := by decide
theorem test_add_i_without_the_strap :
    (afterEvent .step ((v 1 0x10 (at' 0x300 s0)).writeBytes 0x200 [0xF1, 0x1E])).run = .halted .invalidOpcode := by decide
/-- T87, T89. -/
theorem test_ld_f : (after (v 4 0x1A s0) 0xF429).i = 0x082 ∧ (after (v 4 0x0F (under { straps0 with fontBase := 0 })) 0xF429).i = 0x04B := by decide
/-- T90, T92. -/
theorem test_bcd : (after (v 5 0x9C (at' 0x300 s0)) 0xF533).readBytes 0x300 3 = [1, 5, 6] := by decide
theorem test_bcd_out_of_range : (after (v 5 0xFF (at' 0xFFE s0)) 0xF533).run = .halted .addressOutOfRange ∧
    (after (v 5 0xFF (at' 0xFFE s0)) 0xF533).readByte 0xFFE = 0 := by decide
/-- T94a, T95c. -/
theorem test_store : (after (v 0 0x11 (v 1 0x22 (v 2 0x33 (v 3 0x44 (at' 0x400 s0))))) 0xF255).readBytes 0x400 4 = [0x11, 0x22, 0x33, 0] := by decide
theorem test_store_at_the_end :
    let s := v 0 0xAB (at' 0xFFF (under { straps0 with memIInc := .xPlus1 }))
    (after s 0xF055).i = 0 ∧ (after s 0xF055).readByte 0xFFF = 0xAB := by decide
/-- T99b, T100. -/
theorem test_load :
    let s := v 2 0x77 (at' 0x400 ((under { straps0 with memIInc := .x }).writeBytes 0x400 [0xAA, 0xBB, 0xCC]))
    (after s 0xF165).reg 0 = 0xAA ∧ (after s 0xF165).reg 1 = 0xBB ∧ (after s 0xF165).reg 2 = 0x77 ∧ (after s 0xF165).i = 0x401 := by decide
theorem test_load_out_of_range :
    let s := v 0 1 (at' 0xFFF (s0.writeByte 0xFFF 0xAA))
    (after s 0xF165).run = .halted .addressOutOfRange ∧ (after s 0xF165).reg 0 = 1 := by decide

/-! ### Display and random -/

/-- T110: VF stays. -/
theorem test_cls :
    let t := after (v 15 1 (dots [(0, 0), (31, 63)] s0)) 0x00E0
    t.disp = Vector.replicate 32 0 ∧ t.reg 15 = 1 ∧ t.pc = 0x202 := by decide
/-- T114: the columns wrap. -/
theorem test_drw_wraps :
    let t := after (v 0 0x7C (v 1 0x21 (at' 0x300 (s0.writeByte 0x300 0x81)))) 0xD011
    t.disp = (dots [(1, 60), (1, 3)] s0).disp ∧ t.reg 15 = 0 := by decide
/-- T113: one of two targets was set. -/
theorem test_drw_collides :
    let t := after (v 0 0x3E (v 1 0x1F (at' 0x300 (dots [(31, 63)] (s0.writeByte 0x300 0xC0))))) 0xD011
    t.disp = (dots [(31, 62)] s0).disp ∧ t.reg 15 = 1 := by decide
/-- T130, T133. -/
theorem test_rnd : (rndWith 0xA7 1 0x0F s0).reg 1 = 0x07 ∧ (rndWith 0xAB 15 0xF0 s0).reg 15 = 0xA0 := by decide
/-- T131: mask 0, whatever the random byte; and its step. -/
theorem test_rnd_step : (after s0 0xC10F).pc = 0x202 ∧ (after s0 0xC10F).draws = 1 := by decide

/-! ### Input and timers -/

/-- T140, T142. -/
theorem test_skp : (after (v 2 7 { s0 with keys := 0x0080 }) 0xE29E).pc = 0x204 ∧
    (after (v 2 0x15 { s0 with keys := 0x0020 }) 0xE29E).pc = 0x204 := by decide
/-- T143, T144. -/
theorem test_sknp : (after (v 2 7 { s0 with keys := 0x0080 }) 0xE2A1).pc = 0x202 ∧ (after (v 2 7 s0) 0xE2A1).pc = 0x204 := by decide
/-- T145: a held key does not complete the wait. -/
theorem test_key_wait : (after { s0 with keys := 0xFFFF } 0xF30A).run = .awaitingKey 3 ∧
    (after { s0 with keys := 0xFFFF } 0xF30A).pc = 0x200 := by decide
/-- E17. -/
theorem test_key_ready :
    let t := afterEvent .step { s0 with run := .keyReady 3 5 }
    t.reg 3 = 5 ∧ t.pc = 0x202 ∧ t.run = .running := by decide
/-- T150, T151, T152. -/
theorem test_ld_vx_dt : (after { s0 with dt := 0x2C } 0xF307).reg 3 = 0x2C := by decide
theorem test_ld_dt_vx : (after (v 3 0x3C s0) 0xF315).dt = 0x3C := by decide
theorem test_ld_st_vx : (after (v 3 0x3C s0) 0xF318).st = 0x3C := by decide

/-! ### Events -/

/-- E1, E2, E4. -/
theorem test_tick60 : (afterEvent .tick60 { s0 with dt := 3, st := 1 }).dt = 2 ∧ (afterEvent .tick60 { s0 with dt := 3, st := 1 }).st = 0 ∧
    (afterEvent .tick60 s0).dt = 0 ∧ (afterEvent .tick60 { s0 with dt := 5, run := .halted .invalidOpcode }).dt = 4 := by decide
/-- E12, E13, E14, E16. -/
theorem test_key_update :
    (afterEvent (.keyUpdate 0x0120) { s0 with run := .awaitingKey 3 }).run = .keyReady 3 5 ∧
    (afterEvent (.keyUpdate 0x0020) { s0 with run := .awaitingKey 3, keys := 0x0020 }).run = .awaitingKey 3 ∧
    (afterEvent (.keyUpdate 0x0120) { s0 with run := .awaitingKey 3, keys := 0x0020 }).run = .keyReady 3 8 ∧
    (afterEvent (.keyUpdate 0x0001) { s0 with run := .keyReady 3 5, keys := 0x0120 }).run = .keyReady 3 5 := by decide
/-- S1, E23: an image is where the vectors put it, and a reset ends a halted state. -/
theorem test_reset_image :
    let t := afterEvent (.reset [0x60, 0x05, 0x61, 0x03] straps0) { s0 with run := .halted .stackOverflow, dt := 7 }
    t.readBytes 0x200 5 = [0x60, 0x05, 0x61, 0x03, 0x00] ∧ t.run = .running ∧ t.dt = 0 := by decide
/-- E24. -/
theorem test_reset_font : s0.readBytes 0x050 5 = [0xF0, 0x90, 0x90, 0x90, 0xF0] ∧
    s0.readBytes 0x09B 6 = [0xF0, 0x80, 0xF0, 0x80, 0x80, 0x00] ∧ s0.readByte 0x04F = 0 := by decide
/-- A write of what an unlisted address reads as removes the entry. -/
theorem test_memory_canonical : ((s0.writeByte 0x300 5).writeByte 0x300 0).mem = [] ∧
    ((s0.writeByte 0x300 5).writeByte 0x050 0).mem = [(0x050, 0), (0x300, 5)] := by decide

/-! ### Witnesses: for each statement with hypotheses, states and operands that meet them -/

/-- The start state with a word placed at `PC`. -/
def sw (w : Nat) : State := s0.withFetchWord 16 w

/-- `SP` changed. -/
def used (n : Fin 17) (s : State) : State := { s with sp := n }

theorem witness_DecodeOfEncode : (Instr.addIVx 0).wf straps0 = false ∧ (Instr.addIVx 0).wf { straps0 with xFx1e := true } = true := by decide

theorem witness_DecodingFollowsTheOpcodeTable :
    Valid false 0x1234 ∧ decode false 0x1234 = .ok (.jp 0x234) ∧ Valid true 0xFF1E ∧ ¬ Valid false 0xF01E ∧ ¬ Valid true 0x0000 := by
  refine ⟨⟨⟨0xF000, 0x1000, false⟩, by simp [rows], by decide, by decide⟩, by decide,
    ⟨⟨0xF0FF, 0xF01E, true⟩, by simp [rows], by decide, by decide⟩, ?_, ?_⟩ <;>
  · rintro ⟨r, hr, h⟩
    simp only [rows, List.cons_append, List.nil_append, List.mem_cons, List.not_mem_nil, or_false] at hr
    rcases hr with rfl | rfl | rfl | rfl | rfl | rfl | rfl | rfl | rfl | rfl | rfl | rfl | rfl | rfl | rfl | rfl | rfl |
      rfl | rfl | rfl | rfl | rfl | rfl | rfl | rfl | rfl | rfl | rfl | rfl | rfl | rfl | rfl | rfl | rfl <;>
    revert h <;> simp [Row.selects]

theorem witness_StepTakesTheFirstPendingEvent : s0.pending = [] ∧ { s0 with pending := [.tick60] }.pending = .tick60 :: [] := by decide

theorem witness_StepRunsTheDecodedInstruction :
    (∀ s ∈ [sw 0x1234, (from' 0xFFE s0).withFetchWord 16 0x1234], s.run = .running ∧ s.pc.toNat ≤ 0x0FFE ∧
      decode s.straps.xFx1e (s.readByte s.pc.toNat ++ s.readByte (s.pc.toNat + 1)) = .ok (.jp 0x234) ∧ s.pending = []) ∧
    { sw 0x1234 with pending := [.step, .tick60] }.pending = .step :: [.tick60] := by decide

/-- The first state of each pair just faults, the second just does not (T15 and T14, T18, TF3 and TF2, T92 and T91, T96 and
T95a, T98, T118 and T117, T116). -/
theorem witness_StepFaultsExactlyAsTheTaxonomySays :
    (afterEvent .step s0).run = .halted .invalidOpcode ∧
    (afterEvent .step (used 16 (sw 0x2300))).run = .halted .stackOverflow ∧ (afterEvent .step (used 15 (sw 0x2300))).run = .running ∧
    (afterEvent .step (sw 0x00EE)).run = .halted .stackUnderflow ∧ (afterEvent .step (used 1 (sw 0x00EE))).run = .running ∧
    (afterEvent .step (from' 0xFFF s0)).run = .halted .addressOutOfRange ∧
    (afterEvent .step ((from' 0xFFE s0).withFetchWord 16 0x6001)).run = .running := by decide

theorem witness_AddressFaults :
    (afterEvent .step (at' 0xFFE (sw 0xF533))).run = .halted .addressOutOfRange ∧ (afterEvent .step (at' 0xFFD (sw 0xF533))).run = .running ∧
    (afterEvent .step (at' 0xFF1 (sw 0xFF55))).run = .halted .addressOutOfRange ∧ (afterEvent .step (at' 0xFF0 (sw 0xFF55))).run = .running ∧
    (afterEvent .step (at' 0xFFF (sw 0xF165))).run = .halted .addressOutOfRange ∧ (afterEvent .step (at' 0xFFF (sw 0xF065))).run = .running ∧
    (afterEvent .step (at' 0xFFF (sw 0xD012))).run = .halted .addressOutOfRange ∧ (afterEvent .step (at' 0xFFF (sw 0xD011))).run = .running ∧
    (afterEvent .step (at' 0xFFF (sw 0xD010))).run = .running := by decide

theorem witness_OtherFaults :
    (afterEvent .step { s0 with run := .halted .stackOverflow }).run = .halted .stackOverflow ∧
    (afterEvent .tick60 { s0 with run := .halted .stackOverflow }).run = .halted .stackOverflow ∧
    (afterEvent (.reset (List.replicate 3585 0) straps0) s0).run = .halted .imageTooLarge := by
  refine ⟨rfl, rfl, ?_⟩
  have h : ¬ (List.replicate 3585 (0 : Byte)).length ≤ Config.imageMax := by
    rw [List.length_replicate]
    decide
  show (resetWith _ _ _ _).run = _
  rw [resetWith_of_oversize h]

theorem witness_FaultsArePrecise : haltedFlag (sw 0x00EE) = false ∧
    ∃ t, stepEvent (sw 0x00EE) = .next t ∧ t.run = .halted .stackUnderflow := ⟨by decide, _, rfl, rfl⟩

theorem witness_HaltedMachine :
    { s0 with run := .halted .stackOverflow, dt := 5 }.run = .halted .stackOverflow ∧ noReset [.tick60, .step, .keyUpdate 3] ∧
    ∃ t, runEvents [.tick60, .step, .keyUpdate 3] { s0 with run := .halted .stackOverflow, dt := 5 } = .next t ∧ t.dt = 4 ∧ t.keys = 3 := by
  refine ⟨rfl, ?_, _, rfl, rfl, rfl⟩
  intro image q h
  simp at h

/-- The invariant holds of a state in use: a call made, a byte stored, a key wait at its instruction. -/
theorem witness_EveryStepKeepsTheInvariant :
    (s0.withFetchWord 16 0xF30A).WaitsAtFx0A 3 ∧ State.Inv (afterEvent .step (sw 0xF30A)) := by
  refine ⟨by constructor <;> decide, by decide, by decide, by decide, by decide, ?_⟩
  intro x hx
  have e : (afterEvent .step (sw 0xF30A)).run = .awaitingKey 3 := by decide
  simp only [e, Run.awaitingKey.injEq, reduceCtorEq, exists_false, or_false] at hx
  subst hx
  constructor <;> decide

theorem witness_ReachableStates : ∃ t, runEvents [.step, .tick60] (resetWith [0x12, 0x00] straps0 0 []) = .next t := ⟨_, rfl⟩

theorem witness_ResetImages : (List.replicate 3584 (0x5A : Byte)).length ≤ 3584 ∧ 3584 < (List.replicate 3585 (0x5A : Byte)).length := by
  simp only [List.length_replicate]
  decide

/-- E23: the states a reset starts from may be halted ones; two that differ in more than the model's own fields. -/
theorem witness_ResetDiscardsTheState :
    let s := { s0 with run := .halted .stackOverflow, dt := 7, sp := 16 }
    s.draws = s0.draws ∧ s.pending = s0.pending ∧ s.run ≠ s0.run ∧ (afterEvent (.reset [] straps0) s).run = .running := by decide

theorem witness_ResetLeavesTheResetTable : ¬ (straps0.fontBase.val ≤ 0x0A0 ∧ 0x0A0 < straps0.fontBase.val + 80) ∧
    ¬ (0x200 ≤ 0x202 ∧ 0x202 < 0x200 + [(0x12 : Byte), 0x00].length) := by decide

theorem witness_Decodes : (0x1234 : Half) &&& 0xF000 = 0x1000 ∧ (0x2ABC : Half) &&& 0xF000 = 0x2000 ∧ (0x6FFF : Half) &&& 0xF000 = 0x6000 ∧
    (0x7203 : Half) &&& 0xF000 = 0x7000 ∧ (0xAFFF : Half) &&& 0xF000 = 0xA000 ∧ (0xC10F : Half) &&& 0xF000 = 0xC000 ∧
    (0xFF1E : Half) &&& 0xF0FF = 0xF01E := by decide

theorem witness_CallAndReturn : (used 15 s0).sp.val < 16 ∧ (used 16 s0).sp.val = 16 ∧ (used 1 s0).sp.val = (0 : Fin 16).val + 1 ∧
    (used 16 s0).sp.val = (15 : Fin 16).val + 1 ∧ s0.sp.val = 0 := by decide

theorem witness_IndexedJump : (at' 0xFFF s0).i.toNat ≤ 0x0FFF := by decide

theorem witness_Bcd : (at' 0xFFD s0).i.toNat + 2 ≤ 0x0FFF ∧ 0x0FFF < (at' 0xFFE s0).i.toNat + 2 := by decide

theorem witness_BlockTransfers : (at' 0xFF0 s0).i.toNat + (15 : Nibble).toNat ≤ 0x0FFF ∧ (at' 0xFFF s0).i.toNat + (0 : Nibble).toNat ≤ 0x0FFF ∧
    0x0FFF < (at' 0xFF1 s0).i.toNat + (15 : Nibble).toNat ∧ (7 : Nibble).toNat ≤ (15 : Nibble).toNat := by decide

/-- P7: the store at 0x206 overwrites the instruction at 0x208. -/
theorem witness_StoredBytesAreTheNextInstruction :
    let s := v 0 0x6A (v 1 0x07 (at' 0x208 (from' 0x206 s0)))
    s.run = .running ∧ s.i.toNat + (1 : Nibble).toNat ≤ 0x0FFF ∧ (0 : Nibble).toNat < (1 : Nibble).toNat ∧
    (s.pc + 2#16).toNat = s.i.toNat + (0 : Nibble).toNat ∧
    decode s.straps.xFx1e (s.reg 0 ++ s.reg (0 + 1)) = .ok (.ldImm 10 0x07) := by decide

theorem witness_CanonicalMemories : Memory.wf straps0 [(0x050, 0), (0x300, 5)] = true ∧
    Memory.write straps0 [(0x300, 5)] 0x050 0 = [(0x050, 0), (0x300, 5)] := by decide

/-- T114 and T117: two targets, one wrapped; the last byte of memory as a sprite; T118: one byte beyond it. -/
theorem witness_Draw :
    Target 60 1 1 (fun _ => 0x81) 1 3 ∧ ¬ Target 60 1 1 (fun _ => 0x81) 1 4 ∧ (at' 0xFFF s0).i.toNat + (1 : Nibble).toNat - 1 ≤ 0x0FFF ∧
    0x0FFF < (at' 0xFFF s0).i.toNat + (2 : Nibble).toNat - 1 ∧ pixel (dots [(1, 3)] s0).disp 1 3 = true ∧ pixel s0.disp 1 3 = false := by
  refine ⟨⟨0, by decide, 7, by decide, by decide, by decide, by decide⟩, ?_, by decide, by decide, by decide, by decide⟩
  rintro ⟨r, hr, c, hc, hb, h1, h2⟩
  have : c = 8 := by change (60 + c) % 64 = 4 at h2; omega
  omega

theorem witness_DrawNothing : (0 : Nibble).toNat = 0 ∧ ∀ row col, ¬ Target 0 0 0 (fun _ => 0xFF) row col := by
  refine ⟨rfl, ?_⟩
  rintro row col ⟨r, hr, -⟩
  omega

theorem witness_DrawingTwice : (0 : Nibble) ≠ 15 ∧ (1 : Nibble) ≠ 15 ∧ (at' 0x300 s0).i.toNat + (1 : Nibble).toNat - 1 ≤ 0x0FFF := by decide

theorem witness_RandomByteIsMasked : (0x07 : Byte) &&& ~~~0x0F = 0 := by decide

theorem witness_OnlyRndUsesTheRandomSource : ∀ x kk, Instr.drw 1 2 3 ≠ .rnd x kk := by simp

/-- E12, at the boundary: keys 5 and 8 newly pressed, key 3 held. -/
theorem witness_KeyWait :
    let k : Half := 0x0128
    let s := { s0 with keys := 0x0008 }
    k.getLsbD (5 : Nibble).toNat = true ∧ s.keys.getLsbD (5 : Nibble).toNat = false ∧
    ∀ l : Nibble, l.toNat < (5 : Nibble).toNat → k.getLsbD l.toNat = true → s.keys.getLsbD l.toNat = true := by decide

/-- E16 and E17: the latch is replaced before the step that completes the wait. -/
theorem witness_KeyReady :
    let s := afterEvent (.keyUpdate 0x0001) { s0 with run := .keyReady 3 5, keys := 0x0120 }
    s.run = .keyReady 3 5 ∧ s.keys = 0x0001 ∧ (afterEvent .step s).reg 3 = 5 := by decide

theorem witness_KeyUpdateReplacesTheLatch :
    { s0 with run := .awaitingKey 3 }.run = .awaitingKey 3 ∧ (∀ x, s0.run ≠ .awaitingKey x) ∧
    ∀ j : Nibble, (0x0020 : Half).getLsbD j.toNat = true → (0x0020 : Half).getLsbD j.toNat = true := by
  refine ⟨rfl, ?_, fun _ h => h⟩
  intro x h
  cases h

theorem witness_KeyWaitIsEnteredAndLeft :
    (afterEvent (.keyUpdate 0x0020) { s0 with run := .awaitingKey 3 }).run ≠ .awaitingKey 3 ∧
    (sw 0xF30A).run ≠ .awaitingKey 3 ∧ (afterEvent .step (sw 0xF30A)).run = .awaitingKey 3 := by decide

theorem witness_InstructionsWriteOnly : (∃ t, exec (.storeRegs 1) (at' 0x300 s0) = .next t) ∧ ¬ writesReg (.addReg 1 2) 3 ∧
    writesReg (.addReg 1 2) 15 := ⟨⟨_, rfl⟩, by simp [writesReg], .inr rfl⟩

theorem witness_PcAdvances : s0.run = .running ∧ isJump (.skp 1) = false ∧ isSkip (.skp 1) = true ∧
    ∃ t, exec (.skp 1) s0 = .next t ∧ t.run = .running := ⟨rfl, rfl, rfl, _, rfl, rfl⟩

/-- T17: after a return the popped entry is stale. -/
theorem witness_StaleStackEntries : AgreeBelowSp (used 1 s0) { used 1 s0 with stack := s0.stack.set 1 0x030A } ∧
    s0.stack.set 1 0x030A ≠ s0.stack := by
  refine ⟨⟨rfl, by decide⟩, by decide⟩

theorem witness_Settled : (sw 0x1200).Settled ∧ noReset [.step, .tick60] :=
  ⟨⟨by decide, by decide, 0x200, by decide, by decide⟩, by intro image q h; simp at h⟩

/-- Steps and ticks in turn are a fair schedule without resets. -/
theorem witness_FairSchedules :
    let f : Schedule := fun n => if n % 2 = 0 then .step else .tick60
    f.Fair ∧ ∀ n image q, f n ≠ .reset image q := by
  refine ⟨fun n => ⟨⟨2 * n, by omega, ?_⟩, ⟨2 * n + 1, by omega, ?_⟩⟩, ?_⟩
  · exact if_pos (by omega)
  · exact if_neg (by omega)
  · intro n image q
    dsimp only
    split <;> simp

end Sys2Proof.Tests
end

section
/-! PROOFS. The schedule of `step` (spec/00_scope.md R7): one rule per shape of the pending events. -/

namespace Sys2Proof.Machine

/-- With no event pending, the model's own schedule supplies a `Step` (log entry 1). -/
theorem step_of_pending_eq_nil {s : State} (h : s.pending = []) : step s = handle .step s := by
  simp only [step, nextEvent, h]

/-- The event taken is no longer pending in the state that `handle` starts from (log entry 1). -/
theorem step_of_pending_eq_cons {s : State} {e : Event} {es : List Event} (h : s.pending = e :: es) :
    step s = handle e { s with pending := es } := by
  simp only [step, nextEvent, h]

/-- Settles O4: the two shapes of the pending events, a rule for each. -/
theorem stepTakesTheFirstPendingEvent : Obligations.StepTakesTheFirstPendingEvent :=
  ⟨fun _ => step_of_pending_eq_nil, fun _ _ _ => step_of_pending_eq_cons⟩

end Sys2Proof.Machine
end

section
/-! PROOFS. What a `Step` and an instruction can answer: the branches of the fetch (spec/10_state.md R36), and for the six
instructions that can fault the fault or the completion. Every later proof about `exec` goes by these rules. -/

namespace Sys2Proof.Machine

/-! ### The fetch -/

theorem stepEvent_of_running {s : State} (h : s.run = .running) : stepEvent s = fetchExecute s := by
  simp only [stepEvent, h]

theorem stepEvent_of_halted {s : State} {k : Fault} (h : s.run = .halted k) : stepEvent s = .next s := by
  simp only [stepEvent, h]

theorem stepEvent_of_awaitingKey {s : State} {x : Nibble} (h : s.run = .awaitingKey x) : stepEvent s = .next s := by
  simp only [stepEvent, h]

theorem stepEvent_of_keyReady {s : State} {x k : Nibble} (h : s.run = .keyReady x k) :
    stepEvent s = .next (completeKeyWait x k s) := by
  simp only [stepEvent, h]

theorem fetchExecute_of_outOfRange {s : State} (h : outOfRange s.pc.toNat 2 = true) :
    fetchExecute s = raise .addressOutOfRange s := if_pos h

theorem fetchExecute_of_decode_error {s : State} {r : Reject} (hpc : outOfRange s.pc.toNat 2 = false)
    (h : decode s.straps.xFx1e (fetchWord s) = .error r) : fetchExecute s = raise .invalidOpcode s := by
  simp [fetchExecute, hpc, h]

theorem fetchExecute_of_decode_ok {s : State} {i : Instr} (hpc : outOfRange s.pc.toNat 2 = false)
    (h : decode s.straps.xFx1e (fetchWord s) = .ok i) : fetchExecute s = exec i s := by
  simp [fetchExecute, hpc, h]

/-- A running machine's `Step` faults at the fetch, faults at decoding, or executes the decoded instruction. -/
theorem fetchExecute_cases (s : State) :
    (∃ k, fetchExecute s = raise k s) ∨
    ∃ i, outOfRange s.pc.toNat 2 = false ∧ decode s.straps.xFx1e (fetchWord s) = .ok i ∧
      fetchExecute s = exec i s := by
  cases hpc : outOfRange s.pc.toNat 2 with
  | true => exact .inl ⟨_, fetchExecute_of_outOfRange hpc⟩
  | false =>
    cases hd : decode s.straps.xFx1e (fetchWord s) with
    | error r => exact .inl ⟨_, fetchExecute_of_decode_error hpc hd⟩
    | ok i => exact .inr ⟨i, rfl, rfl, fetchExecute_of_decode_ok hpc hd⟩

theorem stepEvent_of_decode_ok {s : State} {i : Instr} (hrun : s.run = .running) (hpc : outOfRange s.pc.toNat 2 = false)
    (h : decode s.straps.xFx1e (fetchWord s) = .ok i) : stepEvent s = exec i s :=
  (stepEvent_of_running hrun).trans (fetchExecute_of_decode_ok hpc h)

/-- Settles O5: below 0x0FFF the range test passes, and the word of the two bytes is the one that is decoded. -/
theorem stepRunsTheDecodedInstruction : Obligations.StepRunsTheDecodedInstruction := by
  intro s i hrun hpc hd
  have hin : outOfRange s.pc.toNat 2 = false := outOfRange_eq_false.mpr (.inr (by omega))
  refine ⟨stepEvent_of_decode_ok hrun hin hd, fun hp => ?_, fun es hp => ?_⟩
  · exact (step_of_pending_eq_nil hp).trans (stepEvent_of_decode_ok hrun hin hd)
  · exact (step_of_pending_eq_cons hp).trans (stepEvent_of_decode_ok (s := { s with pending := es }) hrun hin hd)

/-! ### The instructions that can fault -/

/-- An instruction behind a test faults in the state before it, or completes with the test passed. -/
theorem guarded_cases {c : Bool} {k : Fault} {s t u : State} (h : (if c then raise k s else .next u) = .next t) :
    (c = true ∧ t = { s with run := .halted k }) ∨ (c = false ∧ t = u) := by
  cases c with
  | true => exact .inl ⟨rfl, (Host.Outcome.next.inj h).symm⟩
  | false => exact .inr ⟨rfl, (Host.Outcome.next.inj h).symm⟩

theorem guarded_answers (c : Bool) (k : Fault) (s u : State) : ∃ t, (if c then raise k s else .next u) = .next t := by
  cases c <;> exact ⟨_, rfl⟩

section
variable {nnn : Addr} {s t u : State} {a : Half}

theorem execCall_of_push_eq_some (h : s.push s.npc = some u) : execCall nnn s = .next (u.setPc (addr16 nnn)) := by
  simp only [execCall, h]

theorem execCall_of_full (h : s.sp.val = 16) : execCall nnn s = raise .stackOverflow s := by
  simp only [execCall, push_eq_none.mpr h]

theorem execRet_of_pop_eq_some (h : s.pop = some (a, u)) : execRet s = .next (u.setPc a) := by
  simp only [execRet, h]

theorem execRet_of_empty (h : s.sp.val = 0) : execRet s = raise .stackUnderflow s := by
  simp only [execRet, pop_eq_none.mpr h]

/-- A call faults, or completes with the push (spec/40_control_flow.md R92). -/
theorem execCall_cases (h : execCall nnn s = .next t) :
    (s.sp.val = 16 ∧ t = { s with run := .halted .stackOverflow }) ∨
    ∃ u, s.push s.npc = some u ∧ t = u.setPc (addr16 nnn) := by
  cases hp : s.push s.npc with
  | none =>
    have hsp := push_eq_none.mp hp
    exact .inl ⟨hsp, Host.Outcome.next.inj (h.symm.trans (execCall_of_full hsp))⟩
  | some u => exact .inr ⟨u, rfl, Host.Outcome.next.inj (h.symm.trans (execCall_of_push_eq_some hp))⟩

/-- A return faults, or completes with the pop (spec/40_control_flow.md R93). -/
theorem execRet_cases (h : execRet s = .next t) :
    (s.sp.val = 0 ∧ t = { s with run := .halted .stackUnderflow }) ∨
    ∃ a u, s.pop = some (a, u) ∧ t = u.setPc a := by
  cases hp : s.pop with
  | none =>
    have hsp := pop_eq_none.mp hp
    exact .inl ⟨hsp, Host.Outcome.next.inj (h.symm.trans (execRet_of_empty hsp))⟩
  | some p => exact .inr ⟨p.1, p.2, rfl, Host.Outcome.next.inj (h.symm.trans (execRet_of_pop_eq_some hp))⟩

end

theorem execCall_answers (nnn : Addr) (s : State) : ∃ t, execCall nnn s = .next t := by
  unfold execCall
  split <;> exact ⟨_, rfl⟩

theorem execRet_answers (s : State) : ∃ t, execRet s = .next t := by
  unfold execRet
  split <;> exact ⟨_, rfl⟩

/-- Every instruction answers a next state, a faulting one a halted state (log entry 6). -/
theorem exec_answers (i : Instr) (s : State) : ∃ t, exec i s = .next t := by
  cases i with
  | call nnn => exact execCall_answers nnn s
  | ret => exact execRet_answers s
  | drw | ldB | storeRegs | loadRegs => exact guarded_answers _ _ _ _
  | _ => exact ⟨_, rfl⟩

theorem handle_answers (e : Event) (s : State) : ∃ t, handle e s = .next t := by
  cases e with
  | step =>
    cases hrun : s.run with
    | running =>
      obtain ⟨k, h⟩ | ⟨i, -, -, h⟩ := fetchExecute_cases s
      · exact ⟨_, (stepEvent_of_running hrun).trans h⟩
      · obtain ⟨t, ht⟩ := exec_answers i s
        exact ⟨t, (stepEvent_of_running hrun).trans (h.trans ht)⟩
    | awaitingKey x => exact ⟨s, stepEvent_of_awaitingKey hrun⟩
    | keyReady x k => exact ⟨_, stepEvent_of_keyReady hrun⟩
    | halted k => exact ⟨s, stepEvent_of_halted hrun⟩
  | _ => exact ⟨_, rfl⟩

/-- A step is one event, in the state that has fewer events or the same ones pending (log entry 1). -/
theorem step_eq_handle (s : State) : ∃ e es, step s = handle e { s with pending := es } := by
  cases hp : s.pending with
  | nil => exact ⟨.step, [], by rw [step_of_pending_eq_nil hp, ← hp]⟩
  | cons e es => exact ⟨e, es, step_of_pending_eq_cons hp⟩

theorem step_answers (s : State) : ∃ t, step s = .next t := by
  obtain ⟨e, es, h⟩ := step_eq_handle s
  obtain ⟨t, ht⟩ := handle_answers e { s with pending := es }
  exact ⟨t, h.trans ht⟩

/-- Settles O9: instruction by instruction, then event by event, then for the event that `step` takes. -/
theorem everyEventAnswersANextState : Obligations.EveryEventAnswersANextState :=
  ⟨exec_answers, handle_answers, step_answers⟩

end Sys2Proof.Machine
end

section
/-! PROOFS. The frame of the instructions (spec/10_state.md R20 to R35): which parts of the state each operation leaves as
the same data, and from that what each instruction leaves. -/

namespace Sys2Proof.Machine

open Sys2Proof.Spec

/-- One part is the same data in two states: the fields of `State` that hold it are equal. -/
def SameData (p : Part) (s t : State) : Prop :=
  match p with
  | .regs => t.v = s.v
  | .index => t.i = s.i
  | .stack => t.sp = s.sp ∧ t.stack = s.stack
  | .delay => t.dt = s.dt
  | .sound => t.st = s.st
  | .memory => t.mem = s.mem
  | .display => t.disp = s.disp
  | .keys => t.keys = s.keys
  | .run => t.run = s.run
  | .straps => t.straps = s.straps
  | .draws => t.draws = s.draws
  | .pending => t.pending = s.pending

/-- A part that is the same data reads the same; reading memory takes the straps as well. -/
theorem SameData.same {p : Part} {s t : State} (h : SameData p s t) (hq : t.straps = s.straps) : Same p s t := by
  cases p with
  | regs => exact fun r => congrArg (fun v : Vector Byte 16 => v[r.toNat]'r.isLt) h
  | memory => exact readByte_congr hq h
  | display => exact fun row col => congrArg (pixel · row col) h
  | _ => exact h

@[simp] theorem SameData.refl (p : Part) (s : State) : SameData p s s := by cases p <;> simp [SameData]

/-! ### A rule for each operation -/

section
variable {p : Part} {s t : State}

@[simp] theorem sameData_setPc (a : Half) : SameData p s (t.setPc a) ↔ SameData p s t := by
  cases p <;> simp [SameData]

@[simp] theorem sameData_advance : SameData p s t.advance ↔ SameData p s t := by
  cases p <;> simp [SameData]

@[simp] theorem sameData_skipIf (c : Bool) : SameData p s (State.skipIf c t) ↔ SameData p s t := by
  cases c
  · exact sameData_advance
  · exact sameData_setPc _

theorem sameData_setReg (h : p ≠ .regs) (x : Nibble) (b : Byte) : SameData p s (t.setReg x b) ↔ SameData p s t := by
  cases p <;> simp [SameData] at h ⊢

theorem sameData_setRegFlag (h : p ≠ .regs) (x : Nibble) (b c : Byte) :
    SameData p s (t.setRegFlag x b c) ↔ SameData p s t :=
  (sameData_setReg h _ _).trans (sameData_setReg h _ _)

theorem sameData_loadUpTo (h : p ≠ .regs) (x : Nibble) : SameData p s (loadUpTo x t) ↔ SameData p s t := by
  cases p <;> simp [SameData] at h ⊢

theorem sameData_setI (h : p ≠ .index) (w : Half) : SameData p s (t.setI w) ↔ SameData p s t := by
  cases p <;> simp [SameData] at h ⊢

theorem sameData_writeBytes (h : p ≠ .memory) (a : Nat) (bs : List Byte) :
    SameData p s (t.writeBytes a bs) ↔ SameData p s t := by
  cases p <;> simp [SameData] at h ⊢

theorem setBlockIndex_of_none (h : t.straps.memIInc = .none) (x : Nibble) : setBlockIndex x t = t := by
  simp only [setBlockIndex, h]

theorem sameData_setBlockIndex (h : p ≠ .index ∨ t.straps.memIInc = .none) (x : Nibble) :
    SameData p s (setBlockIndex x t) ↔ SameData p s t := by
  obtain h | h := h
  · cases p <;> simp [SameData] at h ⊢
  · rw [setBlockIndex_of_none h]

end

/-- Fault entry leaves every part but the run state (spec/60_exceptions.md R156). -/
theorem sameData_halted {p : Part} (h : p ≠ .run) (k : Fault) (s : State) : SameData p s { s with run := .halted k } := by
  cases p <;> simp [SameData] at h ⊢

theorem sameData_push {p : Part} (h : p ≠ .stack) {s u : State} {a : Half} (hu : s.push a = some u) : SameData p s u := by
  obtain ⟨_, rfl⟩ := push_eq_some.mp hu
  cases p <;> simp [SameData] at h ⊢

theorem sameData_pop {p : Part} (h : p ≠ .stack) {s u : State} {a : Half} (hu : s.pop = some (a, u)) : SameData p s u := by
  obtain ⟨_, -, rfl⟩ := pop_eq_some.mp hu
  cases p <;> simp [SameData] at h ⊢

/-! ### The instructions -/

/-- What the rules of the block transfers list: one part, and `I` unless the strap `MEM_I_INC` is `NONE`. -/
theorem ne_of_notMem_blockWrites {q : Straps} {p a : Part}
    (h : p ∉ if q.memIInc = .none then [a] else [a, .index]) : p ≠ a ∧ (p ≠ .index ∨ q.memIInc = .none) := by
  split at h <;> simp_all

/-- An instruction leaves every part that its rule does not list, but the run state, as the same data. -/
theorem exec_sameData {i : Instr} {s t : State} {p : Part} (h : exec i s = .next t) (hrun : p ≠ .run)
    (hp : p ∉ writes s.straps i) : SameData p s t := by
  cases i with
  | cls | ldDtVx | ldStVx | ldVxK | rnd =>
    cases h
    cases p <;> simp [SameData, writes] at hrun hp ⊢
  | jp | jpOff | seImm | sneImm | seReg | sneReg | skp | sknp =>
    cases h
    simp
  | ldImm | addImm | ldReg | orReg | andReg | xorReg | ldVxDt =>
    simp only [writes, List.mem_singleton] at hp
    cases h
    simp [sameData_setReg hp]
  | addReg | subReg | shr | subnReg | shl =>
    simp only [writes, List.mem_singleton] at hp
    cases h
    simp [sameData_setRegFlag hp]
  | ldI | addIVx | ldF =>
    simp only [writes, List.mem_singleton] at hp
    cases h
    simp [sameData_setI hp]
  | call nnn =>
    simp only [writes, List.mem_singleton] at hp
    obtain ⟨-, rfl⟩ | ⟨u, hu, rfl⟩ := execCall_cases h
    · exact sameData_halted hrun _ s
    · simp [sameData_push hp hu]
  | ret =>
    simp only [writes, List.mem_singleton] at hp
    obtain ⟨-, rfl⟩ | ⟨a, u, hu, rfl⟩ := execRet_cases h
    · exact sameData_halted hrun _ s
    · simp [sameData_pop hp hu]
  | drw x y n =>
    obtain ⟨-, rfl⟩ | ⟨-, rfl⟩ := guarded_cases h
    · exact sameData_halted hrun _ s
    · cases p <;> simp [SameData, writes] at hp ⊢
  | ldB x =>
    simp only [writes, List.mem_singleton] at hp
    obtain ⟨-, rfl⟩ | ⟨-, rfl⟩ := guarded_cases h
    · exact sameData_halted hrun _ s
    · simp [sameData_writeBytes hp]
  | storeRegs x =>
    obtain ⟨hm, hi⟩ := ne_of_notMem_blockWrites hp
    obtain ⟨-, rfl⟩ | ⟨-, rfl⟩ := guarded_cases h
    · exact sameData_halted hrun _ s
    · rw [sameData_advance, sameData_setBlockIndex (t := s.writeBytes _ _) hi, sameData_writeBytes hm]
      exact .refl p s
  | loadRegs x =>
    obtain ⟨hv, hi⟩ := ne_of_notMem_blockWrites hp
    obtain ⟨-, rfl⟩ | ⟨-, rfl⟩ := guarded_cases h
    · exact sameData_halted hrun _ s
    · rw [sameData_advance, sameData_setBlockIndex (t := loadUpTo x s) hi, sameData_loadUpTo hv]
      exact .refl p s

theorem straps_notMem_writes (q : Straps) (i : Instr) : Part.straps ∉ writes q i := by
  cases i with
  | storeRegs | loadRegs =>
    simp only [writes]
    split <;> decide
  | _ => simp [writes]

/-- The instructions whose rule lists the stack or `ST` are the call, the return and `Fx18` (R24, R26). -/
theorem writes_hidden_cases (q : Straps) (i : Instr) :
    (Part.stack ∉ writes q i ∧ Part.sound ∉ writes q i) ∨ (∃ nnn, i = .call nnn) ∨ i = .ret ∨ ∃ x, i = .ldStVx x := by
  cases i with
  | call nnn => exact .inr (.inl ⟨nnn, rfl⟩)
  | ret => exact .inr (.inr (.inl rfl))
  | ldStVx x => exact .inr (.inr (.inr ⟨x, rfl⟩))
  | storeRegs | loadRegs =>
    refine .inl ?_
    simp only [writes]
    split <;> decide
  | _ => exact .inl (by simp [writes])

/-- The straps are constant between resets (spec/00_scope.md R6). -/
theorem exec_straps {i : Instr} {s t : State} (h : exec i s = .next t) : t.straps = s.straps :=
  exec_sameData (p := .straps) h (by decide) (straps_notMem_writes s.straps i)

/-- An instruction leaves the run state, or faults, or begins the wait of an `Fx0A` (spec/10_state.md R35). -/
theorem exec_run {i : Instr} {s t : State} (h : exec i s = .next t) :
    t.run = s.run ∨ (∃ k, t.run = .halted k) ∨ ∃ x, i = .ldVxK x ∧ t = { s with run := .awaitingKey x } := by
  cases i with
  | ldVxK x => exact .inr (.inr ⟨x, rfl, (Host.Outcome.next.inj h).symm⟩)
  | call nnn =>
    obtain ⟨-, rfl⟩ | ⟨u, hu, rfl⟩ := execCall_cases h
    · exact .inr (.inl ⟨_, rfl⟩)
    · exact .inl ((State.setPc_run _ _).trans (sameData_push (p := .run) (by decide) hu))
  | ret =>
    obtain ⟨-, rfl⟩ | ⟨a, u, hu, rfl⟩ := execRet_cases h
    · exact .inr (.inl ⟨_, rfl⟩)
    · exact .inl ((State.setPc_run _ _).trans (sameData_pop (p := .run) (by decide) hu))
  | drw | ldB | storeRegs | loadRegs =>
    obtain ⟨-, rfl⟩ | ⟨-, rfl⟩ := guarded_cases h
    · exact .inr (.inl ⟨_, rfl⟩)
    · exact .inl (by simp)
  | _ =>
    cases h
    exact .inl (by simp)

/-- Settles O51: a part that is the same data reads the same. -/
theorem instructionsWriteOnlyTheirParts : Obligations.InstructionsWriteOnlyTheirParts := by
  intro i s t h
  refine ⟨fun p hp => ?_, ?_⟩
  · obtain ⟨hrun, hw⟩ := not_or.mp (List.mem_cons.not.mp hp)
    exact (exec_sameData h hrun hw).same (exec_straps h)
  · obtain hr | hk | ⟨x, hi, rfl⟩ := exec_run h
    · exact .inl hr
    · exact .inr (.inl hk)
    · exact .inr (.inr ⟨x, hi, rfl⟩)

/-! ### The registers -/

/-- Settles O52: where the rule lists the registers at all, the rule of the register update says which one changes. -/
theorem instructionsWriteOnlyTheirRegisters : Obligations.InstructionsWriteOnlyTheirRegisters := by
  intro i s t r h hr
  by_cases hp : Part.regs ∈ writes s.straps i
  · cases i with
    | ldImm | addImm | ldReg | orReg | andReg | xorReg | ldVxDt | rnd =>
      cases h
      exact State.reg_setReg_other _ _ hr
    | addReg | subReg | shr | subnReg | shl =>
      obtain ⟨hx, hf⟩ := not_or.mp hr
      cases h
      exact (State.reg_setReg_other _ _ hf).trans (State.reg_setReg_other _ _ hx)
    | drw x y n =>
      obtain ⟨-, rfl⟩ | ⟨-, rfl⟩ := guarded_cases h
      · rfl
      · exact State.reg_setReg_other _ _ hr
    | loadRegs x =>
      obtain ⟨-, rfl⟩ | ⟨-, rfl⟩ := guarded_cases h
      · rfl
      · exact (reg_setBlockIndex _ x r).trans ((reg_loadUpTo s x r).trans (if_neg hr))
    | storeRegs x =>
      simp only [writes] at hp
      split at hp <;> simp at hp
    | _ => simp [writes] at hp
  · exact (exec_sameData h (by decide) hp).same (exec_straps h) r

end Sys2Proof.Machine
end

section
/-! PROOFS. The invariant of reachable states (spec/10_state.md R39): each clause through an instruction, then through each
event, then along a run. -/

namespace Sys2Proof.Machine

open Sys2Proof.Spec

/-! ### A decoded key wait is the word of one (R35) -/

theorem decodeF_eq_ldVxK {fx1e : Bool} {ins : Half} {x : Nibble} (h : decodeF fx1e ins = .ok (.ldVxK x)) :
    Ins.kk ins = 0x0A ∧ Ins.x ins = x := by
  unfold decodeF at h
  split at h
  case h_2 hk => exact ⟨BitVec.eq_of_toNat_eq hk, by simpa using h⟩
  case h_5 => split at h <;> cases h
  all_goals cases h

/-- Only the rows of the top nibble F hold a key wait (spec/30_encoding.md R74). -/
theorem op_of_decode_eq_ldVxK {fx1e : Bool} {ins : Half} {x : Nibble} (h : decode fx1e ins = .ok (.ldVxK x)) :
    (Ins.op ins).toNat = 15 ∧ decodeF fx1e ins = .ok (.ldVxK x) := by
  unfold decode at h
  split at h
  case h_1 => unfold decode0 at h; split at h <;> cases h
  case h_9 => unfold decode8 at h; split at h <;> cases h
  case h_15 => unfold decodeE at h; split at h <;> cases h
  case h_6 | h_10 => split at h <;> cases h
  case h_16 =>
    have := (Ins.op ins).isLt
    simp only [imp_false] at *
    exact ⟨by omega, h⟩
  all_goals cases h

theorem eq_encode_of_decode_eq_ldVxK {fx1e : Bool} {ins : Half} {x : Nibble} (h : decode fx1e ins = .ok (.ldVxK x)) :
    ins = encode (.ldVxK x) := by
  obtain ⟨hop, hF⟩ := op_of_decode_eq_ldVxK h
  obtain ⟨hkk, rfl⟩ := decodeF_eq_ldVxK hF
  have hop : Ins.op ins = 0xF := BitVec.eq_of_toNat_eq hop
  calc ins = formatXKK (Ins.op ins) (Ins.x ins) (Ins.kk ins) := (formatXKK_fields ins).symm
    _ = encode (.ldVxK (Ins.x ins)) := by rw [hop, hkk]; rfl

/-! ### The clauses of the invariant through an instruction -/

section
variable {i : Instr} {s t : State}

theorem setBlockIndex_i_le {u : State} (hi : u.i.toNat ≤ 0x0FFF) (x : Nibble) :
    (setBlockIndex x u).i.toNat ≤ 0x0FFF := by
  unfold setBlockIndex
  split
  · exact hi
  · exact setI_le u _
  · exact setI_le u _

/-- `I` stays within twelve bits: every instruction that writes it masks it (R22). -/
theorem exec_index_le (h : exec i s = .next t) (hi : s.i.toNat ≤ 0x0FFF) : t.i.toNat ≤ 0x0FFF := by
  by_cases hp : Part.index ∈ writes s.straps i
  · cases i with
    | ldI | addIVx | ldF =>
      cases h
      exact setI_le s _
    | storeRegs x =>
      obtain ⟨-, rfl⟩ | ⟨-, rfl⟩ := guarded_cases h
      · exact hi
      · exact setBlockIndex_i_le (u := s.writeBytes _ _) hi x
    | loadRegs x =>
      obtain ⟨-, rfl⟩ | ⟨-, rfl⟩ := guarded_cases h
      · exact hi
      · exact setBlockIndex_i_le (u := loadUpTo x s) hi x
    | _ => simp [writes] at hp
  · rw [exec_sameData (p := .index) h (by decide) hp]
    exact hi

/-- An instruction that is no jump leaves `PC`, or moves it by 2 or by 4 (R23). -/
theorem exec_pc_of_not_isJump (h : exec i s = .next t) (hj : isJump i = false) :
    t.pc = s.pc ∨ t.pc = s.pc + 2#16 ∨ t.pc = s.pc + 4#16 := by
  cases i with
  | jp | call | ret | jpOff => cases hj
  | ldVxK => cases h; exact .inl rfl
  | seImm | sneImm | seReg | sneReg | skp | sknp =>
    cases h
    rw [State.skipIf_pc]
    split
    · exact .inr (.inr rfl)
    · exact .inr (.inl rfl)
  | drw | ldB | storeRegs | loadRegs =>
    obtain ⟨-, rfl⟩ | ⟨-, rfl⟩ := guarded_cases h
    · exact .inl rfl
    · exact .inr (.inl (by simp))
  | _ => cases h; exact .inr (.inl rfl)

/-- The offset of `Bnnn` is at most 0xFFF, whatever the strap (spec/42_index_memory.md R121). -/
theorem jumpOffset_le (nnn : Addr) (hi : s.i.toNat ≤ 0x0FFF) : (jumpOffset nnn s).toNat ≤ 0x0FFF := by
  have byte : ∀ b : Byte, (b.zeroExtend 16).toNat ≤ 0x0FFF := fun b => by
    have := b.isLt
    rw [BitVec.toNat_setWidth]
    omega
  unfold jumpOffset
  split
  · exact byte _
  · exact byte _
  · exact hi

theorem addr16_le (nnn : Addr) : (addr16 nnn).toNat ≤ 0x0FFF := by
  have := nnn.isLt
  rw [addr16_toNat]
  omega

/-- `PC` stays at most 0x1FFE: the largest target is that of `Bnnn` (R23). -/
theorem exec_counter_le (hs : s.Inv) (hpc : s.pc.toNat ≤ 0x0FFE) (h : exec i s = .next t) : t.pc.toNat ≤ 0x1FFE := by
  cases hj : isJump i with
  | false =>
    obtain e | e | e := exec_pc_of_not_isJump h hj <;>
    · rw [e]
      bv_omega
  | true =>
    cases i with
    | jp nnn =>
      cases h
      exact (addr16_le nnn).trans (by decide)
    | call nnn =>
      obtain ⟨-, rfl⟩ | ⟨u, -, rfl⟩ := execCall_cases h
      · exact hs.counter
      · exact (addr16_le nnn).trans (by decide)
    | ret =>
      obtain ⟨-, rfl⟩ | ⟨a, u, hu, rfl⟩ := execRet_cases h
      · exact hs.counter
      · obtain ⟨h0, rfl, -⟩ := pop_eq_some.mp hu
        have hle : (s.stack[s.sp.val - 1]).toNat ≤ 0x1000 :=
          (hs.entries ⟨s.sp.val - 1, by omega⟩ (Nat.sub_lt h0 one_pos)).2
        exact hle.trans (by decide)
    | jpOff nnn =>
      cases h
      have := addr16_le nnn
      have := jumpOffset_le nnn hs.index
      rw [State.setPc_pc, BitVec.toNat_add]
      omega
    | _ => cases hj

theorem sp_of_push {u : State} {a : Half} (hu : s.push a = some u) : u.sp.val = s.sp.val + 1 := by
  obtain ⟨_, rfl⟩ := push_eq_some.mp hu
  rfl

theorem stack_of_push {u : State} {a : Half} (hu : s.push a = some u) (j : Fin 16) :
    u.stack[j] = if s.sp.val = j.val then a else s.stack[j] := by
  obtain ⟨hlt, rfl⟩ := push_eq_some.mp hu
  exact Vector.getElem_set hlt j.isLt

/-- Every entry in use stays the address after a call: a call stores one, a return leaves the array (R24). -/
theorem exec_entries (hs : s.Inv) (hpc : s.pc.toNat ≤ 0x0FFE) (h : exec i s = .next t) (j : Fin 16)
    (hj : j.val < t.sp.val) : 0x0002 ≤ (t.stack[j]).toNat ∧ (t.stack[j]).toNat ≤ 0x1000 := by
  obtain ⟨hp, -⟩ | ⟨nnn, rfl⟩ | rfl | ⟨x, rfl⟩ := writes_hidden_cases s.straps i
  · obtain ⟨hsp, hst⟩ := exec_sameData (p := .stack) h (by decide) hp
    rw [hst]
    exact hs.entries j (hsp ▸ hj)
  · obtain ⟨-, rfl⟩ | ⟨u, hu, rfl⟩ := execCall_cases h
    · exact hs.entries j hj
    · rw [State.setPc_stack, stack_of_push hu]
      split
      · rw [State.npc]
        bv_omega
      · have := sp_of_push hu
        exact hs.entries j (by rw [State.setPc_sp] at hj; omega)
  · obtain ⟨-, rfl⟩ | ⟨a, u, hu, rfl⟩ := execRet_cases h
    · exact hs.entries j hj
    · obtain ⟨h0, -, rfl⟩ := pop_eq_some.mp hu
      exact hs.entries j (lt_of_lt_of_le hj (Nat.sub_le _ _))
  · cases h
    exact hs.entries j hj

/-- Memory stays in its canonical form: a store comes after the range test (R122). -/
theorem exec_memory (hm : Memory.wf s.straps s.mem = true) (h : exec i s = .next t) :
    Memory.wf t.straps t.mem = true := by
  by_cases hp : Part.memory ∈ writes s.straps i
  · cases i with
    | ldB x =>
      obtain ⟨-, rfl⟩ | ⟨hr, rfl⟩ := guarded_cases h
      · exact hm
      · exact Memory.wf_writeBytes _ ((outOfRange_eq_false.mp hr).resolve_left (by decide)) hm
    | storeRegs x =>
      obtain ⟨-, rfl⟩ | ⟨hr, rfl⟩ := guarded_cases h
      · exact hm
      · have hw := Memory.wf_writeBytes (regsUpTo x s) (a := s.i.toNat)
          (by rw [length_regsUpTo]; exact (outOfRange_eq_false.mp hr).resolve_left (by omega)) hm
        simpa using hw
    | loadRegs =>
      simp only [writes] at hp
      split at hp <;> simp at hp
    | _ => simp [writes] at hp
  · rw [exec_straps h, exec_sameData (p := .memory) h (by decide) hp]
    exact hm

/-- A machine begins a key wait at its `Fx0A` (R35). -/
theorem exec_waiting (hrun : s.run = .running) (hpc : outOfRange s.pc.toNat 2 = false)
    (hd : decode s.straps.xFx1e (fetchWord s) = .ok i) (h : exec i s = .next t) (x : Nibble)
    (hx : t.run = .awaitingKey x ∨ ∃ k, t.run = .keyReady x k) : t.WaitsAtFx0A x := by
  obtain hr | ⟨k, hk⟩ | ⟨y, rfl, rfl⟩ := exec_run h
  · simp [hr, hrun] at hx
  · simp [hk] at hx
  · obtain rfl : y = x := by simpa using hx
    exact ⟨hpc, eq_encode_of_decode_eq_ldVxK hd⟩

theorem exec_inv (hs : s.Inv) (hrun : s.run = .running) (hpc : outOfRange s.pc.toNat 2 = false)
    (hd : decode s.straps.xFx1e (fetchWord s) = .ok i) (h : exec i s = .next t) : t.Inv := by
  have hle : s.pc.toNat ≤ 0x0FFE := by
    have := (outOfRange_eq_false.mp hpc).resolve_left (by decide)
    omega
  exact
    { index := exec_index_le h hs.index
      counter := exec_counter_le hs hle h
      entries := exec_entries hs hle h
      memory := exec_memory hs.memory h
      waiting := exec_waiting hrun hpc hd h }

end

/-! ### The invariant through an event -/

/-- Fault entry keeps the invariant: nothing but the run state changes, and the machine waits no more. -/
theorem State.Inv.halted {s : State} (hs : s.Inv) (k : Fault) : State.Inv { s with run := .halted k } :=
  { hs with waiting := fun x hx => by simp at hx }

theorem State.Inv.withPending {s : State} (hs : s.Inv) (es : List Event) : State.Inv { s with pending := es } :=
  ⟨hs.index, hs.counter, hs.entries, hs.memory, hs.waiting⟩

theorem fetchExecute_inv {s t : State} (hs : s.Inv) (hrun : s.run = .running) (h : fetchExecute s = .next t) : t.Inv := by
  obtain ⟨k, hf⟩ | ⟨i, hpc, hd, he⟩ := fetchExecute_cases s
  · obtain rfl := Host.Outcome.next.inj (hf.symm.trans h)
    exact hs.halted k
  · exact exec_inv hs hrun hpc hd (he.symm.trans h)

/-- The completion of a key wait moves `PC` past the `Fx0A`, which was fetched, so that `PC` is at most 0x1000. -/
theorem completeKeyWait_inv {s : State} (hs : s.Inv) {x k : Nibble} (hrun : s.run = .keyReady x k) :
    (completeKeyWait x k s).Inv := by
  obtain ⟨hpc, -⟩ := hs.waiting x (.inr ⟨k, hrun⟩)
  have hle := (outOfRange_eq_false.mp hpc).resolve_left (by decide)
  refine ⟨hs.index, ?_, hs.entries, hs.memory, fun y hy => by simp at hy⟩
  rw [completeKeyWait_pc]
  bv_omega

theorem stepEvent_inv {s t : State} (hs : s.Inv) (h : stepEvent s = .next t) : t.Inv := by
  cases hrun : s.run with
  | running => exact fetchExecute_inv hs hrun ((stepEvent_of_running hrun).symm.trans h)
  | awaitingKey x =>
    obtain rfl := Host.Outcome.next.inj ((stepEvent_of_awaitingKey hrun).symm.trans h)
    exact hs
  | keyReady x k =>
    obtain rfl := Host.Outcome.next.inj ((stepEvent_of_keyReady hrun).symm.trans h)
    exact completeKeyWait_inv hs hrun
  | halted k =>
    obtain rfl := Host.Outcome.next.inj ((stepEvent_of_halted hrun).symm.trans h)
    exact hs

/-- A key update hands a key to a machine that waits, for the same register, and otherwise leaves the run state. -/
theorem keyUpdate_run (k : Half) (s : State) :
    (keyUpdate k s).run = s.run ∨ ∃ x j, s.run = .awaitingKey x ∧ (keyUpdate k s).run = .keyReady x j := by
  unfold keyUpdate
  split
  · next x j hrun _ => exact .inr ⟨x, j, hrun, rfl⟩
  · exact .inl rfl

/-- Where a key wait stands depends on `PC`, the straps and memory alone. -/
theorem State.WaitsAtFx0A.congr {s t : State} {x : Nibble} (h : s.WaitsAtFx0A x) (hpc : t.pc = s.pc)
    (hq : t.straps = s.straps) (hm : t.mem = s.mem) : t.WaitsAtFx0A x := by
  have hf : fetchWord t = fetchWord s := by simp only [fetchWord, hpc, readByte_congr hq hm]
  exact ⟨hpc ▸ h.1, hf.trans h.2⟩

theorem keyUpdate_inv {s : State} (hs : s.Inv) (k : Half) : (keyUpdate k s).Inv := by
  refine ⟨by simpa using hs.index, by simpa using hs.counter, by simpa using hs.entries, by simpa using hs.memory,
    fun x hx => ?_⟩
  have hw : s.run = .awaitingKey x ∨ ∃ j, s.run = .keyReady x j := by
    obtain hr | ⟨y, j, hy, hr⟩ := keyUpdate_run k s
    · exact hr ▸ hx
    · obtain rfl : y = x := by simpa [hr] using hx
      exact .inl hy
  exact (hs.waiting x hw).congr (by simp) (by simp) (by simp)

section
variable (image : List Byte) (q : Straps) (n : Nat) (es : List Event)

theorem resetWith_i : (resetWith image q n es).i = 0 := by unfold resetWith; split <;> rfl

theorem resetWith_pc : (resetWith image q n es).pc = 0x200#16 := by unfold resetWith; split <;> rfl

theorem resetWith_sp : (resetWith image q n es).sp = 0 := by unfold resetWith; split <;> rfl

theorem resetWith_run :
    (resetWith image q n es).run = .running ∨ (resetWith image q n es).run = .halted .imageTooLarge := by
  unfold resetWith
  split
  · exact .inl rfl
  · exact .inr rfl

theorem resetWith_inv : (resetWith image q n es).Inv where
  index := by rw [resetWith_i]; decide
  counter := by rw [resetWith_pc]; decide
  entries j hj := by simp [resetWith_sp] at hj
  memory := resetWith_memory_wf image q n es
  waiting x hx := by obtain h | h := resetWith_run image q n es <;> simp [h] at hx

end

theorem handle_inv {e : Event} {s t : State} (hs : s.Inv) (h : handle e s = .next t) : t.Inv := by
  cases e with
  | step => exact stepEvent_inv hs h
  | tick60 => cases h; exact ⟨hs.index, hs.counter, hs.entries, hs.memory, hs.waiting⟩
  | keyUpdate k => cases h; exact keyUpdate_inv hs k
  | readDisplay => cases h; exact hs
  | reset image q => cases h; exact resetWith_inv image q s.draws s.pending

/-- Settles O11: a step is one event, and no clause speaks of the pending ones. -/
theorem everyStepKeepsTheInvariant : Obligations.EveryStepKeepsTheInvariant := by
  intro s t hs h
  obtain ⟨e, es, he⟩ := step_eq_handle s
  exact handle_inv (hs.withPending es) (he.symm.trans h)

/-! ### The invariant along a run -/

/-- What every event keeps, every run keeps. -/
theorem runEvents_induction {P : State → Prop} (hP : ∀ e s t, P s → handle e s = .next t → P t) {es : List Event}
    {s t : State} (hs : P s) (h : runEvents es s = .next t) : P t := by
  induction es generalizing s with
  | nil => exact Host.Outcome.next.inj h ▸ hs
  | cons e es ih =>
    obtain ⟨u, hu⟩ := handle_answers e s
    simp only [runEvents, hu] at h
    exact ih (hP e s u hs hu) h

/-- Settles O12: a reset establishes the invariant and every event keeps it. -/
theorem reachableStatesMeetTheInvariant : Obligations.ReachableStatesMeetTheInvariant :=
  fun image q n pend _ _ h => runEvents_induction (fun _ _ _ => handle_inv) (resetWith_inv image q n pend) h

/-- Settles O10: `State.reset` is a reset with the empty image. -/
theorem resetStateMeetsTheInvariant : Obligations.ResetStateMeetsTheInvariant :=
  show State.reset.Inv from reset_eq_resetWith ▸ resetWith_inv [] Config.resetStraps 0 []

end Sys2Proof.Machine
end

section
/-! PROOFS. Memory as data and the reset table: the canonical form is determined by what it reads (log entry 9), and what
`Reset` leaves in every element (spec/10_state.md R38). -/

namespace Sys2Proof.Machine

namespace Memory

/-! ### The canonical form is determined by what it reads -/

/-- The byte found for an address is one of the listed cells. -/
theorem mem_of_find?_eq_some {m : Memory} {a : Nat} {x : Byte} (h : find? m a = some x) : (a, x) ∈ m := by
  induction m with
  | nil => cases h
  | cons c m ih =>
    obtain ⟨b, w⟩ := c
    rw [find?] at h
    split at h
    · next e =>
      obtain rfl := Option.some.inj h
      exact e ▸ List.mem_cons_self
    · exact List.mem_cons_of_mem _ (ih h)

/-- In the canonical form an address is listed exactly when it reads as something else than an unlisted one. -/
theorem find?_eq_of_wf {q : Straps} {m : Memory} (h : wf q m = true) (a : Nat) :
    find? m a = if read q m a = resetByte q a then none else some (read q m a) := by
  cases hf : find? m a with
  | none => simp [read, hf]
  | some x =>
    simp only [wf, Bool.and_eq_true, List.all_eq_true, decide_eq_true_eq] at h
    obtain ⟨-, hx⟩ := h.2 _ (mem_of_find?_eq_some hf)
    simp [read, hf, hx]

theorem find?_eq_none_of_rising {lo a : Nat} (ha : a < lo) {m : Memory} (h : rising lo m = true) : find? m a = none := by
  induction m generalizing lo with
  | nil => rfl
  | cons c m ih =>
    simp only [rising, Bool.and_eq_true, decide_eq_true_eq] at h
    rw [find?, if_neg (by omega)]
    exact ih (by omega) h.2

/-- An address listed first and found in a rising list lies at or above that list's first address. -/
theorem head_le_of_find?_eq {b b' : Nat} {w w' : Byte} {m m' : Memory} (h' : rising (b' + 1) m' = true)
    (heq : find? ((b, w) :: m) b = find? ((b', w') :: m') b) : b' ≤ b := by
  by_contra hlt
  have hr : rising b' ((b', w') :: m') = true := by simpa [rising] using h'
  rw [find?_eq_none_of_rising (Nat.lt_of_not_le hlt) hr, find?, if_pos rfl] at heq
  cases heq

/-- Two rising lists that list the same byte for every address are equal: the two first addresses are each found in the
other list, so neither lies below the other. -/
theorem eq_of_find?_eq {lo : Nat} {m m' : Memory} (h : rising lo m = true) (h' : rising lo m' = true)
    (heq : ∀ a, find? m a = find? m' a) : m = m' := by
  induction m generalizing lo m' with
  | nil =>
    cases m' with
    | nil => rfl
    | cons c' m' => simpa [find?] using heq c'.1
  | cons c m ih =>
    cases m' with
    | nil => simpa [find?] using heq c.1
    | cons c' m' =>
      obtain ⟨b, w⟩ := c
      obtain ⟨b', w'⟩ := c'
      simp only [rising, Bool.and_eq_true, decide_eq_true_eq] at h h'
      obtain rfl : b = b' := Nat.le_antisymm (head_le_of_find?_eq h.2 (heq b').symm) (head_le_of_find?_eq h'.2 (heq b))
      obtain rfl : w = w' := by simpa [find?] using heq b
      have htail : ∀ a, find? m a = find? m' a := fun a => by
        by_cases ha : a = b
        · rw [find?_eq_none_of_rising (by omega) h.2, find?_eq_none_of_rising (by omega) h'.2]
        · simpa [find?, ha] using heq a
      rw [ih h.2 h'.2 htail]

/-- Settles O37: the bytes read determine the bytes listed, and these determine the list. -/
theorem canonicalMemoriesThatReadAlikeAreEqual : Obligations.CanonicalMemoriesThatReadAlikeAreEqual := by
  intro q m m' h h' hr
  have hfind : ∀ a, find? m a = find? m' a := fun a => by rw [find?_eq_of_wf h, find?_eq_of_wf h', hr]
  simp only [wf, Bool.and_eq_true] at h h'
  exact eq_of_find?_eq h.1 h'.1 hfind

end Memory

/-! ### The reset table -/

/-- An unlisted address outside the font reads as 0 (D12, log entry 7). -/
theorem resetByte_of_not_font {q : Straps} {a : Nat} (h : ¬ (q.fontBase.val ≤ a ∧ a < q.fontBase.val + 80)) :
    resetByte q a = 0 := dif_neg h

/-- After a reset with an image that fits, a byte outside the font and the image is 0 (R38). -/
theorem readByte_resetWith_of_fits {image : List Byte} {q : Straps} {n a : Nat} {es : List Event}
    (h : image.length ≤ Config.imageMax) (hf : ¬ (q.fontBase.val ≤ a ∧ a < q.fontBase.val + 80))
    (hi : ¬ (0x200 ≤ a ∧ a < 0x200 + image.length)) : (resetWith image q n es).readByte a = 0 := by
  rw [resetWith_of_fits h]
  calc Memory.read q (Memory.writeBytes q [] Config.entry image) a
      = Memory.read q [] a := Memory.read_writeBytes_of_not q [] _ a image (by simp only [Config.entry]; omega)
    _ = 0 := resetByte_of_not_font hf

/-- The font ends below 0x200, so the reset with the empty image fetches 0x0000, an invalid word, at its first step
(spec/70_reset_and_hazards.md R181). -/
theorem stepEvent_resetWith_nil (q : Straps) (n : Nat) (es : List Event) :
    stepEvent (resetWith [] q n es) = .next { resetWith [] q n es with run := .halted .invalidOpcode } := by
  have := q.fontBase.isLt
  have zero : ∀ a, 0x200 ≤ a → (resetWith [] q n es).readByte a = 0 := fun a ha =>
    readByte_resetWith_of_fits (Nat.zero_le _) (by omega) (by simp only [List.length_nil]; omega)
  have hf : fetchWord (resetWith [] q n es) = 0 := by
    rw [fetchWord, resetWith_pc, zero _ (by decide), zero _ (by decide)]
    rfl
  have hd : decode (resetWith [] q n es).straps.xFx1e (fetchWord (resetWith [] q n es)) = .error (.invalidOpcode 0) := by
    rw [hf]
    rfl
  rw [stepEvent_of_running rfl, fetchExecute_of_decode_error (by rw [resetWith_pc]; decide) hd, raise_eq]

/-- Every pixel of the blank display plane is 0. -/
theorem pixel_blank (row : Fin 32) (col : Fin 64) : pixel (Vector.replicate 32 0) row col = false := by
  simp [pixel]

/-- Settles O14: the reset table element by element; and `Reset` reads the previous state at `draws` and `pending` only. -/
theorem resetLeavesTheResetTable : Obligations.ResetLeavesTheResetTable := by
  refine ⟨fun image q s h => ?_, fun image q s s' hd hp => ?_, fun s => rfl⟩
  · have e := resetWith_of_fits h q s.draws s.pending
    refine ⟨_, congrArg Host.Outcome.next e, fun r => Vector.getElem_replicate r.isLt, rfl, rfl, rfl,
      fun j => Vector.getElem_replicate j.isLt, rfl, rfl, pixel_blank, rfl, rfl, rfl, fun a hf hi => ?_, rfl, rfl,
      fun hnil => ?_⟩
    · exact e ▸ readByte_resetWith_of_fits h hf hi
    · subst hnil
      exact e ▸ stepEvent_resetWith_nil q s.draws s.pending
  · simp only [handle, hd, hp]

end Sys2Proof.Machine
end

section
/-! PROOFS. What no program observes: the sound timer (spec/10_state.md R26) and the stack entries not in use (R24, D19).
Both are hidden from every instruction but those whose rules list them, so that one case split serves both. -/

namespace Sys2Proof.Machine

open Sys2Proof.Spec

/-- The state with another stack array and another sound timer; `SP` stays. -/
def State.withHidden (s : State) (k : Vector Half 16) (b : Byte) : State := { s with stack := k, st := b }

/-! ### The hidden parts through an instruction -/

section
variable (s : State) (k : Vector Half 16) (b : Byte)

theorem skipIf_withHidden (c : Bool) : State.skipIf c (s.withHidden k b) = (State.skipIf c s).withHidden k b := by
  cases c <;> rfl

theorem setBlockIndex_withHidden (x : Nibble) : setBlockIndex x (s.withHidden k b) = (setBlockIndex x s).withHidden k b := by
  unfold setBlockIndex
  cases h : s.straps.memIInc <;> simp only [State.withHidden, h] <;> rfl

theorem guarded_withHidden {c : Bool} {f : Fault} {u v : State} (h : v = u.withHidden k b) :
    (if c then raise f (s.withHidden k b) else .next v) =
      mapNext (·.withHidden k b) (if c then raise f s else .next u) := by
  subst h
  cases c <;> rfl

/-- An instruction whose rule lists neither the stack nor `ST` neither reads nor writes the stack array and `ST`. -/
theorem exec_withHidden {i : Instr} (hstack : Part.stack ∉ writes s.straps i) (hsound : Part.sound ∉ writes s.straps i) :
    exec i (s.withHidden k b) = mapNext (·.withHidden k b) (exec i s) := by
  cases i with
  | call | ret => simp [writes] at hstack
  | ldStVx => simp [writes] at hsound
  | seImm | sneImm | seReg | sneReg | skp | sknp => exact congrArg Host.Outcome.next (skipIf_withHidden s k b _)
  | drw | ldB => exact guarded_withHidden s k b rfl
  | storeRegs x =>
    exact guarded_withHidden s k b (congrArg State.advance (setBlockIndex_withHidden (s.writeBytes _ _) k b x))
  | loadRegs x => exact guarded_withHidden s k b (congrArg State.advance (setBlockIndex_withHidden (loadUpTo x s) k b x))
  | _ => rfl

end

/-! ### The hidden parts through an event -/

section
variable {s u : State} {k : Vector Half 16} {b : Byte}

/-- The other instructions answer the same next state but for the hidden parts, which they leave as they were. -/
theorem exec_withHidden_next {i : Instr} (h : exec i s = .next u) (hstack : Part.stack ∉ writes s.straps i)
    (hsound : Part.sound ∉ writes s.straps i) :
    exec i (s.withHidden k b) = .next (u.withHidden k b) ∧ SameData .stack s u ∧ SameData .sound s u := by
  refine ⟨?_, exec_sameData h (by decide) hstack, exec_sameData h (by decide) hsound⟩
  rw [exec_withHidden s k b hstack hsound, h]
  rfl

/-- A `Step` is an instruction, the same one whatever the hidden parts hold, or it leaves the hidden parts alone. -/
theorem stepEvent_withHidden (h : stepEvent s = .next u) (k : Vector Half 16) (b : Byte) :
    (∃ i, exec i s = .next u ∧ stepEvent (s.withHidden k b) = exec i (s.withHidden k b)) ∨
    stepEvent (s.withHidden k b) = .next (u.withHidden k b) ∧ SameData .stack s u ∧ SameData .sound s u := by
  cases hrun : s.run with
  | running =>
    rw [stepEvent_of_running hrun] at h
    have ht : stepEvent (s.withHidden k b) = fetchExecute (s.withHidden k b) := stepEvent_of_running hrun
    cases hpc : outOfRange s.pc.toNat 2 with
    | true =>
      obtain rfl := Host.Outcome.next.inj ((fetchExecute_of_outOfRange hpc).symm.trans h)
      exact .inr ⟨ht.trans (fetchExecute_of_outOfRange hpc), ⟨rfl, rfl⟩, rfl⟩
    | false =>
      cases hd : decode s.straps.xFx1e (fetchWord s) with
      | error r =>
        obtain rfl := Host.Outcome.next.inj ((fetchExecute_of_decode_error hpc hd).symm.trans h)
        exact .inr ⟨ht.trans (fetchExecute_of_decode_error (s := s.withHidden k b) hpc hd), ⟨rfl, rfl⟩, rfl⟩
      | ok i =>
        exact .inl ⟨i, (fetchExecute_of_decode_ok hpc hd).symm.trans h,
          ht.trans (fetchExecute_of_decode_ok (s := s.withHidden k b) hpc hd)⟩
  | awaitingKey x =>
    obtain rfl := Host.Outcome.next.inj ((stepEvent_of_awaitingKey hrun).symm.trans h)
    exact .inr ⟨stepEvent_of_awaitingKey (s := s.withHidden k b) hrun, ⟨rfl, rfl⟩, rfl⟩
  | keyReady x j =>
    obtain rfl := Host.Outcome.next.inj ((stepEvent_of_keyReady hrun).symm.trans h)
    exact .inr ⟨stepEvent_of_keyReady (s := s.withHidden k b) hrun, ⟨rfl, rfl⟩, rfl⟩
  | halted f =>
    obtain rfl := Host.Outcome.next.inj ((stepEvent_of_halted hrun).symm.trans h)
    exact .inr ⟨stepEvent_of_halted (s := s.withHidden k b) hrun, ⟨rfl, rfl⟩, rfl⟩

theorem keyUpdate_withHidden (j : Half) (s : State) (k : Vector Half 16) (b : Byte) :
    keyUpdate j (s.withHidden k b) = (keyUpdate j s).withHidden k b := by
  unfold keyUpdate
  cases hr : s.run <;> cases hk : lowestKey (newlyPressed j s.keys) <;> simp only [State.withHidden, hr, hk]

end

/-! ### Runs in lockstep -/

theorem runEvents_answers (es : List Event) (s : State) : ∃ t, runEvents es s = .next t := by
  induction es generalizing s with
  | nil => exact ⟨s, rfl⟩
  | cons e es ih =>
    obtain ⟨u, hu⟩ := handle_answers e s
    obtain ⟨t, ht⟩ := ih u
    exact ⟨t, by simp only [runEvents, hu, ht]⟩

/-- A relation between states that every event keeps is kept by every run. -/
theorem runEvents_lockstep {R : State → State → Prop}
    (hR : ∀ e s t s', R s t → handle e s = .next s' → ∃ t', handle e t = .next t' ∧ R s' t') {es : List Event}
    {s t s' : State} (h : R s t) (hs : runEvents es s = .next s') : ∃ t', runEvents es t = .next t' ∧ R s' t' := by
  induction es generalizing s t with
  | nil => exact ⟨t, rfl, Host.Outcome.next.inj hs ▸ h⟩
  | cons e es ih =>
    obtain ⟨u, hu⟩ := handle_answers e s
    obtain ⟨v, hv, huv⟩ := hR e s t u h hu
    simp only [runEvents, hu] at hs
    obtain ⟨t', ht', hR'⟩ := ih huv hs
    exact ⟨t', by simp only [runEvents, hv, ht'], hR'⟩

/-! ### The sound timer -/

/-- Two states that differ at most in `ST`. -/
def AgreeButSound (s t : State) : Prop := ∃ b, t = { s with st := b }

theorem agreeButSound_of_withHidden {s u : State} (h : SameData .stack s u) (b : Byte) :
    AgreeButSound u (u.withHidden s.stack b) := ⟨b, by rw [← h.2]; rfl⟩

/-- No instruction reads `ST`; `Fx18` writes the same value to it in both states. -/
theorem exec_agreeButSound {i : Instr} {s t s' : State} (h : AgreeButSound s t) (hs : exec i s = .next s') :
    ∃ t', exec i t = .next t' ∧ AgreeButSound s' t' := by
  obtain ⟨b, rfl⟩ := h
  obtain ⟨hk, hb⟩ | ⟨nnn, rfl⟩ | rfl | ⟨x, rfl⟩ := writes_hidden_cases s.straps i
  · obtain ⟨ht, hk, -⟩ := exec_withHidden_next (k := s.stack) (b := b) hs hk hb
    exact ⟨_, ht, agreeButSound_of_withHidden hk b⟩
  · obtain ⟨hn, rfl⟩ | ⟨u, hu, rfl⟩ := execCall_cases hs
    · exact ⟨_, execCall_of_full hn, b, rfl⟩
    · obtain ⟨hlt, rfl⟩ := push_eq_some.mp hu
      exact ⟨_, execCall_of_push_eq_some (push_eq_some.mpr ⟨hlt, rfl⟩), b, rfl⟩
  · obtain ⟨hn, rfl⟩ | ⟨a, u, hu, rfl⟩ := execRet_cases hs
    · exact ⟨_, execRet_of_empty hn, b, rfl⟩
    · obtain ⟨hlt, rfl, rfl⟩ := pop_eq_some.mp hu
      exact ⟨_, execRet_of_pop_eq_some (pop_eq_some.mpr ⟨hlt, rfl, rfl⟩), b, rfl⟩
  · cases hs
    exact ⟨_, rfl, s.reg x, rfl⟩

theorem handle_agreeButSound (e : Event) (s t s' : State) (h : AgreeButSound s t) (hs : handle e s = .next s') :
    ∃ t', handle e t = .next t' ∧ AgreeButSound s' t' := by
  obtain ⟨b, rfl⟩ := h
  cases e with
  | step =>
    obtain ⟨i, hi, ht⟩ | ⟨ht, hk, -⟩ := stepEvent_withHidden hs s.stack b
    · obtain ⟨t', ht', hR⟩ := exec_agreeButSound ⟨b, rfl⟩ hi
      exact ⟨t', ht.trans ht', hR⟩
    · exact ⟨_, ht, agreeButSound_of_withHidden hk b⟩
  | tick60 => cases hs; exact ⟨_, rfl, decrement b, rfl⟩
  | keyUpdate k =>
    cases hs
    refine ⟨_, congrArg Host.Outcome.next (keyUpdate_withHidden k s s.stack b), ?_⟩
    exact agreeButSound_of_withHidden ⟨keyUpdate_sp s k, keyUpdate_stack s k⟩ b
  | readDisplay => cases hs; exact ⟨_, rfl, b, rfl⟩
  | reset image q => exact ⟨s', hs, s'.st, rfl⟩

/-- Settles O54: the two runs go in lockstep, and clearing `ST` makes the ends equal. -/
theorem soundTimerIsUnobservable : Obligations.SoundTimerIsUnobservable := by
  intro es s b
  obtain ⟨u, hu⟩ := runEvents_answers es s
  obtain ⟨v, hv, c, rfl⟩ := runEvents_lockstep handle_agreeButSound ⟨b, rfl⟩ hu
  rw [hu, hv]
  rfl

/-! ### The stack entries not in use -/

theorem agreeBelowSp_of_withHidden {s u : State} {k : Vector Half 16}
    (hk : ∀ j : Fin 16, j.val < s.sp.val → k[j] = s.stack[j])
    (hstack : SameData .stack s u) (hsound : SameData .sound s u) :
    AgreeBelowSp u (u.withHidden k s.st) := by
  obtain ⟨hsp, hst⟩ := hstack
  refine ⟨by rw [← show u.st = s.st from hsound]; rfl, fun j hj => ?_⟩
  rw [hst]
  exact hk j (hsp ▸ hj)

theorem agreeBelowSp_iff {s t : State} :
    AgreeBelowSp s t ↔ ∃ k, t = s.withHidden k s.st ∧ ∀ j : Fin 16, j.val < s.sp.val → k[j] = s.stack[j] :=
  ⟨fun ⟨ht, hk⟩ => ⟨t.stack, ht, hk⟩, fun ⟨_, ht, hk⟩ => by subst ht; exact ⟨rfl, hk⟩⟩

/-- A call writes the entry at `SP` in both states before it is in use; a return reads an entry in use. -/
theorem exec_agreeBelowSp {i : Instr} {s t s' : State} (h : AgreeBelowSp s t) (hs : exec i s = .next s') :
    ∃ t', exec i t = .next t' ∧ AgreeBelowSp s' t' := by
  obtain ⟨k, rfl, hk⟩ := agreeBelowSp_iff.mp h
  obtain ⟨hw, hb⟩ | ⟨nnn, rfl⟩ | rfl | ⟨x, rfl⟩ := writes_hidden_cases s.straps i
  · obtain ⟨ht, hstack, hsound⟩ := exec_withHidden_next (k := k) (b := s.st) hs hw hb
    exact ⟨_, ht, agreeBelowSp_of_withHidden hk hstack hsound⟩
  · obtain ⟨hn, rfl⟩ | ⟨u, hu, rfl⟩ := execCall_cases hs
    · exact ⟨_, execCall_of_full hn, rfl, hk⟩
    · obtain ⟨hlt, rfl⟩ := push_eq_some.mp hu
      refine ⟨_, execCall_of_push_eq_some (push_eq_some.mpr ⟨hlt, rfl⟩), rfl, fun j hj => ?_⟩
      change (k.set s.sp.val s.npc hlt)[j.val] = (s.stack.set s.sp.val s.npc hlt)[j.val]
      rw [Vector.getElem_set, Vector.getElem_set]
      split
      · rfl
      · change j.val < s.sp.val + 1 at hj
        exact hk j (by omega)
  · obtain ⟨hn, rfl⟩ | ⟨a, u, hu, rfl⟩ := execRet_cases hs
    · exact ⟨_, execRet_of_empty hn, rfl, hk⟩
    · obtain ⟨hlt, rfl, rfl⟩ := pop_eq_some.mp hu
      have htop : k[s.sp.val - 1] = s.stack[s.sp.val - 1] := hk ⟨s.sp.val - 1, by omega⟩ (Nat.sub_lt hlt one_pos)
      exact ⟨_, execRet_of_pop_eq_some (pop_eq_some.mpr ⟨hlt, htop.symm, rfl⟩), rfl,
        fun j hj => hk j (lt_of_lt_of_le hj (Nat.sub_le _ _))⟩
  · cases hs
    exact ⟨_, rfl, rfl, hk⟩

theorem handle_agreeBelowSp (e : Event) (s t s' : State) (h : AgreeBelowSp s t) (hs : handle e s = .next s') :
    ∃ t', handle e t = .next t' ∧ AgreeBelowSp s' t' := by
  obtain ⟨k, rfl, hk⟩ := agreeBelowSp_iff.mp h
  cases e with
  | step =>
    obtain ⟨i, hi, ht⟩ | ⟨ht, hstack, hsound⟩ := stepEvent_withHidden hs k s.st
    · obtain ⟨t', ht', hR⟩ := exec_agreeBelowSp h hi
      exact ⟨t', ht.trans ht', hR⟩
    · exact ⟨_, ht, agreeBelowSp_of_withHidden hk hstack hsound⟩
  | tick60 => cases hs; exact ⟨_, rfl, rfl, hk⟩
  | keyUpdate j =>
    cases hs
    refine ⟨_, congrArg Host.Outcome.next (keyUpdate_withHidden j s k s.st), ?_⟩
    exact agreeBelowSp_of_withHidden hk ⟨keyUpdate_sp s j, keyUpdate_stack s j⟩ (keyUpdate_st s j)
  | readDisplay => cases hs; exact ⟨_, rfl, h⟩
  | reset image q => exact ⟨s', hs, rfl, fun _ _ => rfl⟩

/-- Settles O55: the two runs go in lockstep. -/
theorem staleStackEntriesAreUnobservable : Obligations.StaleStackEntriesAreUnobservable :=
  fun _ _ _ _ => runEvents_lockstep handle_agreeBelowSp

end Sys2Proof.Machine
end

section
/-! PROOFS. Fetches see stores (spec/20_memory.md R51, R60): the bytes `Fx55` stores, read one by one, and the word that two
of them make for the fetch of the next `Step` (R50). -/

namespace Sys2Proof.Machine

/-- Once the range test passes, `Fx55` stores its registers and completes (spec/42_index_memory.md R122, R125). -/
theorem exec_storeRegs_of_fits {x : Nibble} {s : State} (h : s.i.toNat + x.toNat ≤ 0x0FFF) :
    exec (.storeRegs x) s = .next (setBlockIndex x (s.writeBytes s.i.toNat (regsUpTo x s))).advance := by
  have hin : ¬ outOfRange s.i.toNat (x.toNat + 1) = true := by
    rw [outOfRange_iff]
    omega
  exact if_neg hin

/-- The block that `Fx55` stores holds register `j` at offset `j` (spec/42_index_memory.md R125). -/
theorem readByte_writeBytes_regsUpTo {x j : Nibble} (h : j.toNat ≤ x.toNat) (s : State) (a : Nat) :
    (s.writeBytes a (regsUpTo x s)).readByte (a + j.toNat) = s.reg j := by
  have hlen : j.toNat < (regsUpTo x s).length := by
    rw [length_regsUpTo]
    omega
  calc (s.writeBytes a (regsUpTo x s)).readByte (a + j.toNat)
      = (regsUpTo x s)[j.toNat] := Memory.read_writeBytes_add s.straps s.mem a j.toNat _ hlen
    _ = s.reg j := by rw [getElem_regsUpTo, BitVec.ofNat_toNat, BitVec.setWidth_eq]

/-- Where the next instruction lies at register `j` of a stored block, the word fetched there is registers `j` and
`j + 1`, the lower-numbered one more significant (spec/20_memory.md R50). -/
theorem fetchWord_writeBytes_regsUpTo {x j : Nibble} {s : State} {a : Nat} (hj : j.toNat < x.toNat)
    (hpc : (s.pc + 2#16).toNat = a + j.toNat) :
    fetchWord (setBlockIndex x (s.writeBytes a (regsUpTo x s))).advance = s.reg j ++ s.reg (j + 1) := by
  have hsucc : (j + 1).toNat = j.toNat + 1 := by bv_omega
  have hfirst := readByte_writeBytes_regsUpTo (j := j) hj.le s a
  have hsecond := readByte_writeBytes_regsUpTo (x := x) (j := j + 1) (by omega) s a
  rw [hsucc, ← Nat.add_assoc] at hsecond
  simp only [fetchWord, wordOfBytes, State.advance_pc, setBlockIndex_pc, State.writeBytes_pc, hpc, State.readByte_advance,
    readByte_setBlockIndex, hfirst, hsecond]

/-- Settles O36: the store completes, the next `Step` fetches in range, and the word it fetches is the two registers. -/
theorem storedBytesAreTheNextInstruction : Obligations.StoredBytesAreTheNextInstruction := by
  intro x j s i hrun hfit hj hpc hd
  refine ⟨_, exec_storeRegs_of_fits hfit, stepEvent_of_decode_ok ?_ ?_ ?_⟩
  · simpa using hrun
  · rw [State.advance_pc, setBlockIndex_pc, State.writeBytes_pc, hpc]
    exact outOfRange_eq_false.mpr (.inr (by omega))
  · rw [fetchWord_writeBytes_regsUpTo hj hpc]
    simpa using hd

end Sys2Proof.Machine
end

section
/-! PROOFS. Decoding against encoding (spec/30_encoding.md R71 to R77): the word of an instruction from its literal fields,
decoding of that word, what the decoder answers for any word, and the rows of the opcode table. -/

namespace Sys2Proof

open Sys2Proof.Spec Sys2Proof.Laws

/-! ### A word is its literal fields and its operands (R71, R72) -/

section
variable {ins : Half} {op n : Nibble} {kk : Byte} (hop : (Ins.op ins).toNat = op.toNat)
include hop

theorem formatNNN_eq_of_op : formatNNN op (Ins.nnn ins) = ins := by
  rw [← BitVec.eq_of_toNat_eq hop, formatNNN_fields]

theorem formatXKK_eq_of_op : formatXKK op (Ins.x ins) (Ins.kk ins) = ins := by
  rw [← BitVec.eq_of_toNat_eq hop, formatXKK_fields]

theorem formatXYN_eq_of_op : formatXYN op (Ins.x ins) (Ins.y ins) (Ins.n ins) = ins := by
  rw [← BitVec.eq_of_toNat_eq hop, formatXYN_fields]

theorem formatXKK_eq_of_op_of_kk (hkk : (Ins.kk ins).toNat = kk.toNat) : formatXKK op (Ins.x ins) kk = ins := by
  rw [← BitVec.eq_of_toNat_eq hkk, formatXKK_eq_of_op hop]

theorem formatXYN_eq_of_op_of_n (hn : (Ins.n ins).toNat = n.toNat) : formatXYN op (Ins.x ins) (Ins.y ins) n = ins := by
  rw [← BitVec.eq_of_toNat_eq hn, formatXYN_eq_of_op hop]

end

/-! ### Decoding the word of an instruction (R74, R77) -/

/-- Whether the value of the strap `X_FX1E` lets the instruction be one: only `Fx1E` needs it (D5, log entry 23). -/
def Instr.availableUnder (fx1e : Bool) : Instr → Bool
  | .addIVx _ => fx1e
  | _ => true

theorem Instr.wf_eq_availableUnder (q : Straps) (i : Instr) : i.wf q = i.availableUnder q.xFx1e := by
  cases i <;> rfl

theorem decode_encode_addIVx (fx1e : Bool) (x : Nibble) : decode fx1e (encode (.addIVx x)) =
    if fx1e then .ok (.addIVx x) else .error (.invalidOpcode (encode (.addIVx x))) := by
  simp [encode, decode, decodeF]

/-- The formats put the operands where the decoder reads them; one group of cases for each group of rows that the decoder
tells apart by the same field. -/
theorem decode_encode {fx1e : Bool} {i : Instr} (h : i.availableUnder fx1e = true) : decode fx1e (encode i) = .ok i := by
  cases i
  case cls | ret => rfl
  case jp | call | ldI | jpOff | seImm | sneImm | ldImm | addImm | rnd | seReg | sneReg | drw => simp [encode, decode]
  case ldReg | orReg | andReg | xorReg | addReg | subReg | shr | subnReg | shl => simp [encode, decode, decode8]
  case skp | sknp => simp [encode, decode, decodeE]
  case addIVx x => exact (decode_encode_addIVx fx1e x).trans (if_pos h)
  all_goals simp [encode, decode, decodeF]

/-- Settles O2: a word decodes to its instruction where the strap allows it, and the one instruction that a strap can
withhold is `Fx1E`. -/
theorem decodeOfEncodeGivesTheInstruction : Obligations.DecodeOfEncodeGivesTheInstruction := by
  refine fun q i => ⟨fun h => decode_encode ((i.wf_eq_availableUnder q).symm.trans h), fun h => ?_⟩
  cases i
  case addIVx x => rw [decode_encode_addIVx, if_neg (by rw [show q.xFx1e = false from h]; decide)]
  all_goals cases h

/-! ### What the decoder answers for any word (R73, R75) -/

/-- What decoding may answer for a word: an instruction of which this is the word, or the word rejected by name. -/
def AnswersFor (ins : Half) (a : Except Reject Instr) : Prop :=
  (∃ i, a = .ok i ∧ encode i = ins) ∨ a = .error (.invalidOpcode ins)

theorem AnswersFor.of_encode {ins : Half} {i : Instr} (h : encode i = ins) : AnswersFor ins (.ok i) := .inl ⟨i, rfl, h⟩

theorem AnswersFor.rejected {ins : Half} : AnswersFor ins (.error (.invalidOpcode ins)) := .inr rfl

theorem decode0_answersFor (ins : Half) : AnswersFor ins (decode0 ins) := by
  unfold decode0
  split
  case h_1 h | h_2 h => exact .of_encode (BitVec.eq_of_toNat_eq h.symm)
  case h_3 => exact .rejected

theorem decode8_answersFor {ins : Half} (hop : (Ins.op ins).toNat = 0x8) : AnswersFor ins (decode8 ins) := by
  unfold decode8
  split
  case h_10 => exact .rejected
  all_goals exact .of_encode (formatXYN_eq_of_op_of_n hop ‹_›)

theorem decodeE_answersFor {ins : Half} (hop : (Ins.op ins).toNat = 0xE) : AnswersFor ins (decodeE ins) := by
  unfold decodeE
  split
  case h_3 => exact .rejected
  all_goals exact .of_encode (formatXKK_eq_of_op_of_kk hop ‹_›)

theorem decodeF_answersFor {fx1e : Bool} {ins : Half} (hop : (Ins.op ins).toNat = 0xF) :
    AnswersFor ins (decodeF fx1e ins) := by
  unfold decodeF
  split
  case h_5 hkk =>
    split
    · exact .of_encode (formatXKK_eq_of_op_of_kk hop hkk)
    · exact .rejected
  case h_10 => exact .rejected
  all_goals exact .of_encode (formatXKK_eq_of_op_of_kk hop ‹_›)

theorem decode_answersFor (fx1e : Bool) (ins : Half) : AnswersFor ins (decode fx1e ins) := by
  unfold decode
  split
  case h_1 => exact decode0_answersFor ins
  case h_2 hop | h_3 hop | h_11 hop | h_12 hop => exact .of_encode (formatNNN_eq_of_op hop)
  case h_4 hop | h_5 hop | h_7 hop | h_8 hop | h_13 hop => exact .of_encode (formatXKK_eq_of_op hop)
  case h_6 hop | h_10 hop =>
    split
    case isTrue hn => exact .of_encode (formatXYN_eq_of_op_of_n hop (congrArg BitVec.toNat hn))
    case isFalse => exact .rejected
  case h_14 hop => exact .of_encode (formatXYN_eq_of_op hop)
  case h_9 hop => exact decode8_answersFor hop
  case h_15 hop => exact decodeE_answersFor hop
  case h_16 =>
    have := (Ins.op ins).isLt
    simp only [imp_false] at *
    exact decodeF_answersFor (by omega)

/-- The instruction decoded is the one of which the word is the word. -/
theorem encode_eq_of_decode_ok {fx1e : Bool} {ins : Half} {i : Instr} (h : decode fx1e ins = .ok i) : encode i = ins := by
  obtain ⟨j, hj, hins⟩ | herr := decode_answersFor fx1e ins
  · obtain rfl := Except.ok.inj (h.symm.trans hj)
    exact hins
  · cases h.symm.trans herr

theorem availableUnder_of_decode_ok {fx1e : Bool} {ins : Half} {i : Instr} (h : decode fx1e ins = .ok i) :
    i.availableUnder fx1e = true := by
  cases i
  case addIVx x =>
    rw [← encode_eq_of_decode_ok h, decode_encode_addIVx] at h
    by_contra (hf : ¬ fx1e = true)
    rw [if_neg hf] at h
    cases h
  all_goals rfl

/-! ### The rows of the opcode table (R74) -/

/-- The row of an instruction selects its word, whatever the operands. -/
theorem encode_and_mask_row : ∀ i, EncodingRow.Statement i
  | .cls => EncodingRow.cls
  | .ret => EncodingRow.ret
  | .jp _ => EncodingRow.jp _
  | .call _ => EncodingRow.call _
  | .seImm _ _ => EncodingRow.seImm _ _
  | .sneImm _ _ => EncodingRow.sneImm _ _
  | .seReg _ _ => EncodingRow.seReg _ _
  | .ldImm _ _ => EncodingRow.ldImm _ _
  | .addImm _ _ => EncodingRow.addImm _ _
  | .ldReg _ _ => EncodingRow.ldReg _ _
  | .orReg _ _ => EncodingRow.orReg _ _
  | .andReg _ _ => EncodingRow.andReg _ _
  | .xorReg _ _ => EncodingRow.xorReg _ _
  | .addReg _ _ => EncodingRow.addReg _ _
  | .subReg _ _ => EncodingRow.subReg _ _
  | .shr _ _ => EncodingRow.shr _ _
  | .subnReg _ _ => EncodingRow.subnReg _ _
  | .shl _ _ => EncodingRow.shl _ _
  | .sneReg _ _ => EncodingRow.sneReg _ _
  | .ldI _ => EncodingRow.ldI _
  | .jpOff _ => EncodingRow.jpOff _
  | .rnd _ _ => EncodingRow.rnd _ _
  | .drw _ _ _ => EncodingRow.drw _ _ _
  | .skp _ => EncodingRow.skp _
  | .sknp _ => EncodingRow.sknp _
  | .ldVxDt _ => EncodingRow.ldVxDt _
  | .ldVxK _ => EncodingRow.ldVxK _
  | .ldDtVx _ => EncodingRow.ldDtVx _
  | .ldStVx _ => EncodingRow.ldStVx _
  | .addIVx _ => EncodingRow.addIVx _
  | .ldF _ => EncodingRow.ldF _
  | .ldB _ => EncodingRow.ldB _
  | .storeRegs _ => EncodingRow.storeRegs _
  | .loadRegs _ => EncodingRow.loadRegs _

theorem exists_row_of_availableUnder {fx1e : Bool} {i : Instr} (h : i.availableUnder fx1e = true) :
    ∃ ext, ⟨(EncodingRow.row i).1, (EncodingRow.row i).2, ext⟩ ∈ rows ∧ (ext = true → fx1e = true) := by
  cases i
  case addIVx x => exact ⟨true, by simp [rows, EncodingRow.row], fun _ => h⟩
  all_goals exact ⟨false, by simp [rows, EncodingRow.row], nofun⟩

theorem valid_encode {fx1e : Bool} {i : Instr} (h : i.availableUnder fx1e = true) : Valid fx1e (encode i) := by
  obtain ⟨ext, hmem, hext⟩ := exists_row_of_availableUnder h
  exact ⟨_, hmem, encode_and_mask_row i, hext⟩

theorem valid_of_decode_ok {fx1e : Bool} {ins : Half} {i : Instr} (h : decode fx1e ins = .ok i) : Valid fx1e ins :=
  encode_eq_of_decode_ok h ▸ valid_encode (availableUnder_of_decode_ok h)

section
variable {ins : Half} {op n : Nibble} {kk : Byte}

theorem pat_eq_of_mask {pat : Half} (h : ins &&& 0xFFFF = pat) : pat = ins := by
  rw [← h]
  exact BitVec.and_allOnes

theorem formatNNN_eq_of_mask (h : ins &&& 0xF000 = formatNNN op 0) : formatNNN op (Ins.nnn ins) = ins := by
  rw [← formatNNN_fields ins, EncodingRow.nnn_mask] at h
  have hop : Ins.op ins = op := by simpa using congrArg Ins.op h
  rw [← hop, formatNNN_fields]

theorem formatXKK_eq_of_mask (h : ins &&& 0xF000 = formatXKK op 0 0) : formatXKK op (Ins.x ins) (Ins.kk ins) = ins := by
  rw [← formatXKK_fields ins, EncodingRow.xkk_mask] at h
  have hop : Ins.op ins = op := by simpa using congrArg Ins.op h
  rw [← hop, formatXKK_fields]

theorem formatXYN_eq_of_mask (h : ins &&& 0xF000 = formatXYN op 0 0 0) :
    formatXYN op (Ins.x ins) (Ins.y ins) (Ins.n ins) = ins := by
  rw [← formatXYN_fields ins, EncodingRow.xyn_mask] at h
  have hop : Ins.op ins = op := by simpa using congrArg Ins.op h
  rw [← hop, formatXYN_fields]

theorem formatXFF_eq_of_mask (h : ins &&& 0xF0FF = formatXKK op 0 kk) : formatXKK op (Ins.x ins) kk = ins := by
  rw [← formatXKK_fields ins, EncodingRow.xff_mask] at h
  have hop : Ins.op ins = op := by simpa using congrArg Ins.op h
  have hkk : Ins.kk ins = kk := by simpa using congrArg Ins.kk h
  rw [← hop, ← hkk, formatXKK_fields]

theorem formatXYF_eq_of_mask (h : ins &&& 0xF00F = formatXYN op 0 0 n) :
    formatXYN op (Ins.x ins) (Ins.y ins) n = ins := by
  rw [← formatXYN_fields ins, EncodingRow.xyf_mask] at h
  have hop : Ins.op ins = op := by simpa using congrArg Ins.op h
  have hn : Ins.n ins = n := by simpa using congrArg Ins.n h
  rw [← hop, ← hn, formatXYN_fields]

end

/-- Every word that a row selects is the word of an instruction: the operands are the fields that the row's mask leaves
free, row by row in the table's order. -/
theorem exists_encode_of_row :
    ∀ r ∈ rows, ∀ fx1e ins, r.selects fx1e ins → ∃ i, i.availableUnder fx1e = true ∧ encode i = ins := by
  simp only [rows, List.cons_append, List.nil_append, List.forall_mem_cons]
  refine ⟨fun _ _ h => ⟨.cls, rfl, pat_eq_of_mask h.1⟩,
    fun _ _ h => ⟨.ret, rfl, pat_eq_of_mask h.1⟩,
    fun _ _ h => ⟨.jp _, rfl, formatNNN_eq_of_mask h.1⟩,
    fun _ _ h => ⟨.call _, rfl, formatNNN_eq_of_mask h.1⟩,
    fun _ _ h => ⟨.seImm _ _, rfl, formatXKK_eq_of_mask h.1⟩,
    fun _ _ h => ⟨.sneImm _ _, rfl, formatXKK_eq_of_mask h.1⟩,
    fun _ _ h => ⟨.seReg _ _, rfl, formatXYF_eq_of_mask h.1⟩,
    fun _ _ h => ⟨.ldImm _ _, rfl, formatXKK_eq_of_mask h.1⟩,
    fun _ _ h => ⟨.addImm _ _, rfl, formatXKK_eq_of_mask h.1⟩,
    fun _ _ h => ⟨.ldReg _ _, rfl, formatXYF_eq_of_mask h.1⟩,
    fun _ _ h => ⟨.orReg _ _, rfl, formatXYF_eq_of_mask h.1⟩,
    fun _ _ h => ⟨.andReg _ _, rfl, formatXYF_eq_of_mask h.1⟩,
    fun _ _ h => ⟨.xorReg _ _, rfl, formatXYF_eq_of_mask h.1⟩,
    fun _ _ h => ⟨.addReg _ _, rfl, formatXYF_eq_of_mask h.1⟩,
    fun _ _ h => ⟨.subReg _ _, rfl, formatXYF_eq_of_mask h.1⟩,
    fun _ _ h => ⟨.shr _ _, rfl, formatXYF_eq_of_mask h.1⟩,
    fun _ _ h => ⟨.subnReg _ _, rfl, formatXYF_eq_of_mask h.1⟩,
    fun _ _ h => ⟨.shl _ _, rfl, formatXYF_eq_of_mask h.1⟩,
    fun _ _ h => ⟨.sneReg _ _, rfl, formatXYF_eq_of_mask h.1⟩,
    fun _ _ h => ⟨.ldI _, rfl, formatNNN_eq_of_mask h.1⟩,
    fun _ _ h => ⟨.jpOff _, rfl, formatNNN_eq_of_mask h.1⟩,
    fun _ _ h => ⟨.rnd _ _, rfl, formatXKK_eq_of_mask h.1⟩,
    fun _ _ h => ⟨.drw _ _ _, rfl, formatXYN_eq_of_mask h.1⟩,
    fun _ _ h => ⟨.skp _, rfl, formatXFF_eq_of_mask h.1⟩,
    fun _ _ h => ⟨.sknp _, rfl, formatXFF_eq_of_mask h.1⟩,
    fun _ _ h => ⟨.ldVxDt _, rfl, formatXFF_eq_of_mask h.1⟩,
    fun _ _ h => ⟨.ldVxK _, rfl, formatXFF_eq_of_mask h.1⟩,
    fun _ _ h => ⟨.ldDtVx _, rfl, formatXFF_eq_of_mask h.1⟩,
    fun _ _ h => ⟨.ldStVx _, rfl, formatXFF_eq_of_mask h.1⟩,
    fun _ _ h => ⟨.ldF _, rfl, formatXFF_eq_of_mask h.1⟩,
    fun _ _ h => ⟨.ldB _, rfl, formatXFF_eq_of_mask h.1⟩,
    fun _ _ h => ⟨.storeRegs _, rfl, formatXFF_eq_of_mask h.1⟩,
    fun _ _ h => ⟨.loadRegs _, rfl, formatXFF_eq_of_mask h.1⟩,
    fun _ _ h => ⟨.addIVx _, h.2 rfl, formatXFF_eq_of_mask h.1⟩, nofun⟩

theorem exists_encode_of_valid {fx1e : Bool} {ins : Half} (h : Valid fx1e ins) :
    ∃ i, i.availableUnder fx1e = true ∧ encode i = ins := by
  obtain ⟨r, hr, hsel⟩ := h
  exact exists_encode_of_row r hr fx1e ins hsel

/-- A word selected by two rows has both patterns where both masks look. -/
theorem pat_and_mask_eq_of_selects {fx1e : Bool} {r r' : Row} {ins : Half} (h : r.selects fx1e ins)
    (h' : r'.selects fx1e ins) : r.pat &&& r'.mask = r'.pat &&& r.mask := by
  rw [← h.1, ← h'.1, BitVec.and_assoc, BitVec.and_assoc, BitVec.and_comm r.mask]

/-- Any two rows differ in a bit at which both masks look. -/
theorem rows_pairwise_pat_ne : rows.Pairwise fun r r' => r.pat &&& r'.mask ≠ r'.pat &&& r.mask := by decide

/-- Settles O3: a selected word is the word of an instruction, and so decodes; a word that decodes is the word of its
instruction, whose row selects it; and what the decoder does not decode it rejects by name. -/
theorem decodingFollowsTheOpcodeTable : Obligations.DecodingFollowsTheOpcodeTable := by
  refine ⟨fun fx1e ins h => ?_, fun fx1e ins i h => ⟨valid_of_decode_ok h, encode_eq_of_decode_ok h⟩,
    fun fx1e ins h => ?_, rows_pairwise_pat_ne.imp fun hne ins h => ?_⟩
  · obtain ⟨i, hi, rfl⟩ := exists_encode_of_valid h
    exact ⟨i, decode_encode hi⟩
  · obtain ⟨i, hi, -⟩ | herr := decode_answersFor fx1e ins
    · exact absurd (valid_of_decode_ok hi) h
    · exact herr
  · exact hne (pat_and_mask_eq_of_selects h.1 h.2)

/-! ### Sample words -/

theorem sampleWords_encode : ∀ p ∈ sampleWords, encode p.2 = p.1 := by decide

theorem sampleWords_availableUnder : ∀ p ∈ sampleWords, ∀ fx1e, p.2.availableUnder fx1e = true := by decide

theorem decode_invalidWords : ∀ w ∈ invalidWords, decode false w = .error (.invalidOpcode w) := by
  simp only [invalidWords, List.forall_mem_cons]
  exact ⟨rfl, rfl, rfl, rfl, rfl, rfl, rfl, rfl, rfl, rfl, rfl, rfl, rfl, rfl, nofun⟩

/-- Settles O1: the sample words are the words of their instructions, none of which is `Fx1E`. -/
theorem wordsFromThePatternsDecode : Obligations.WordsFromThePatternsDecode := by
  refine ⟨fun p hp fx1e => ?_, decode_invalidWords, decode_encode_addIVx true 0⟩
  rw [← sampleWords_encode p hp]
  exact decode_encode (sampleWords_availableUnder p hp fx1e)

end Sys2Proof
end

section
/-! PROOFS. Control flow (spec/40_control_flow.md R90 to R97): the frame of an instruction that neither faults nor waits,
the decoding of a row of the opcode table, and from these the jump, the call, the return and the skips. -/

namespace Sys2Proof.Machine

open Sys2Proof.Spec

/-! ### The frame and the decoding of one row -/

/-- An instruction that leaves the run state changes only the parts that its rule lists. -/
theorem exec_onlyChanges {i : Instr} {s t : State} (h : exec i s = .next t) (hrun : t.run = s.run) :
    OnlyChanges (writes s.straps i) s t := by
  intro p hp
  by_cases hr : p = .run
  · rw [hr]
    exact hrun
  · exact (exec_sameData h hr hp).same (exec_straps h)

theorem same_trans {p : Part} {s t u : State} (hst : Same p s t) (htu : Same p t u) : Same p s u := by
  cases p with
  | regs => exact fun r => (htu r).trans (hst r)
  | memory => exact fun a => (htu a).trans (hst a)
  | display => exact fun row col => (htu row col).trans (hst row col)
  | stack => exact ⟨htu.1.trans hst.1, htu.2.trans hst.2⟩
  | _ => exact Eq.trans htu hst

theorem onlyChanges_trans {ps : List Part} {s t u : State} (hst : OnlyChanges ps s t) (htu : OnlyChanges ps t u) :
    OnlyChanges ps s u := fun p hp => same_trans (hst p hp) (htu p hp)

/-- A row decodes to the instruction read from the word when the word is that instruction's own (spec/30_encoding.md R74). -/
theorem decodes_of_encode_eq {mask pat : Half} {mk : Half → Instr}
    (hstrap : ∀ fx1e ins, (mk ins).availableUnder fx1e = true) (h : ∀ ins, ins &&& mask = pat → encode (mk ins) = ins) :
    Decodes mask pat mk := fun fx1e ins hm =>
  calc decode fx1e ins = decode fx1e (encode (mk ins)) := by rw [h ins hm]
    _ = .ok (mk ins) := decode_encode (hstrap fx1e ins)

/-! ### The jump, the call and the return -/

/-- Settles O17: a jump is one write to `PC`. -/
theorem jumpWritesThePc : Obligations.JumpWritesThePc :=
  ⟨decodes_of_encode_eq (fun _ _ => rfl) fun _ => formatNNN_eq_of_mask (op := 0x1), fun nnn _ =>
    ⟨_, rfl, addr16_toNat nnn, exec_onlyChanges (i := .jp nnn) rfl rfl⟩⟩

/-- Settles O18: below sixteen entries the push answers, at sixteen it does not. -/
theorem callPushesTheReturnAddress : Obligations.CallPushesTheReturnAddress := by
  refine ⟨decodes_of_encode_eq (fun _ _ => rfl) fun _ => formatNNN_eq_of_mask (op := 0x2), fun nnn s =>
    ⟨fun hlt => ?_, execCall_of_full⟩⟩
  obtain ⟨u, hu⟩ : ∃ u, s.push s.npc = some u := ⟨_, push_eq_some.mpr ⟨hlt, rfl⟩⟩
  have hcall : exec (.call nnn) s = .next (u.setPc (addr16 nnn)) := execCall_of_push_eq_some hu
  have hsp := sp_of_push hu
  refine ⟨_, hcall, addr16_toNat nnn, hsp, fun j => ?_, exec_onlyChanges hcall ?_⟩
  · rw [State.setPc_stack, stack_of_push hu, State.npc]
    exact if_congr eq_comm rfl rfl
  · exact (State.setPc_run _ _).trans (sameData_push (p := .run) (by decide) hu)

/-- Settles O19: above no entry the pop answers, at no entry it does not. -/
theorem returnPopsThePc : Obligations.ReturnPopsThePc := by
  refine ⟨decode_encode (i := .ret) rfl, decode_encode (i := .ret) rfl, fun s => ⟨fun j hj => ?_, execRet_of_empty⟩⟩
  have hpos : 0 < s.sp.val := by omega
  have hret : exec .ret s = _ := execRet_of_pop_eq_some (pop_eq_some.mpr ⟨hpos, rfl, rfl⟩)
  have hsp : s.sp.val - 1 = j.val := by omega
  refine ⟨_, hret, ?_, hsp, rfl, exec_onlyChanges hret rfl⟩
  simp only [State.setPc_pc, hsp, Fin.getElem_fin]

/-- Settles O20: the call leaves its return address as the newest entry, and the return pops that entry. -/
theorem callThenReturnComesBack : Obligations.CallThenReturnComesBack := by
  intro nnn s hlt
  obtain ⟨t, hcall, -, htsp, htstack, hst⟩ := (callPushesTheReturnAddress.2 nnn s).1 hlt
  obtain ⟨u, hret, hupc, husp, hustack, htu⟩ := (returnPopsThePc.2.2 t).1 ⟨s.sp.val, hlt⟩ htsp
  refine ⟨t, u, hcall, hret, ?_, Fin.ext husp, fun j hj => ?_, onlyChanges_trans hst htu⟩
  · rw [hupc, htstack, if_pos rfl]
  · rw [hustack, htstack, if_neg hj.ne]

/-! ### The skips -/

theorem exec_skipIf_onlyChanges {i : Instr} {s : State} {c : Bool} (h : exec i s = .next (s.skipIf c)) :
    OnlyChanges (writes s.straps i) s (s.skipIf c) := exec_onlyChanges h (State.skipIf_run s c)

/-- Settles O21: each compare skip is `State.skipIf` of its condition, and its rule lists no part. -/
theorem compareSkipsMoveThePcOnly : Obligations.CompareSkipsMoveThePcOnly := by
  intro x y kk s
  refine ⟨⟨_, rfl, ?_, exec_skipIf_onlyChanges (i := .seImm x kk) rfl⟩,
    ⟨_, rfl, ?_, exec_skipIf_onlyChanges (i := .sneImm x kk) rfl⟩,
    ⟨_, rfl, ?_, exec_skipIf_onlyChanges (i := .seReg x y) rfl⟩,
    ⟨_, rfl, ?_, exec_skipIf_onlyChanges (i := .sneReg x y) rfl⟩⟩ <;>
  simp only [State.skipIf_pc, decide_eq_true_eq, ne_eq, ite_not]

/-- Settles O53: an instruction that is no jump keeps running exactly when it passes its range test and is no key
wait, and then its last act is `State.advance` or `State.skipIf`. -/
theorem pcAdvancesByTwoOrFour : Obligations.PcAdvancesByTwoOrFour := by
  intro i s t h _ hrun hj
  cases i with
  | jp | call | ret | jpOff => cases hj
  | ldVxK =>
    cases h
    cases hrun
  | seImm | sneImm | seReg | sneReg | skp | sknp =>
    cases h
    rw [State.skipIf_pc]
    split
    · exact .inr ⟨rfl, rfl⟩
    · exact .inl rfl
  | drw | ldB | storeRegs | loadRegs =>
    obtain ⟨-, rfl⟩ | ⟨-, rfl⟩ := guarded_cases h
    · cases hrun
    · exact .inl (by simp)
  | _ =>
    cases h
    exact .inl rfl

end Sys2Proof.Machine
end

section
/-! PROOFS. Loads and arithmetic (spec/41_load_arith.md R100 to R112): an instruction whose answer is one register write, an
instruction whose answer is a result and a flag, the values of the operations as numbers, and from these the instructions. -/

namespace Sys2Proof.Machine

open Sys2Proof.Spec

/-! ### One register, or a result and then the flag (R100) -/

theorem reg_setRegFlag_result {x : Nibble} (hx : x ≠ 15) (s : State) (b c : Byte) : (s.setRegFlag x b c).reg x = b :=
  (State.reg_setReg_other _ _ hx).trans (State.reg_setReg_same _ _ _)

/-- The flag is written last, so it remains also when VF is the destination (D7, log entry 11). -/
theorem reg_setRegFlag_flag (s : State) (x : Nibble) (b c : Byte) : (s.setRegFlag x b c).reg 15 = c :=
  State.reg_setReg_same _ _ _

section
variable {i : Instr} {s : State} {x : Nibble} {b c : Byte} {P Q : Byte → Prop}

/-- An instruction that answers one register write: what holds of the value holds of the register, and nothing but that
register and `PC` changes. -/
theorem exec_setReg (h : exec i s = .next (s.setReg x b).advance) (hw : writes s.straps i = [.regs]) (hb : P b) :
    ∃ t, exec i s = .next t ∧ P (t.reg x) ∧ RegsExcept [x] s t ∧ t.pc = s.pc + 2#16 ∧ OnlyChanges [.regs] s t := by
  refine ⟨_, h, ?_, fun r hr => ?_, rfl, hw ▸ exec_onlyChanges h rfl⟩
  · rwa [State.reg_advance, State.reg_setReg_same]
  · exact State.reg_setReg_other s b (List.mem_singleton.not.mp hr)

/-- An instruction that answers a result and a flag: what holds of the result holds of the destination unless that is VF,
what holds of the flag holds of VF, and nothing but the two registers and `PC` changes. -/
theorem exec_setRegFlag (h : exec i s = .next (s.setRegFlag x b c).advance) (hw : writes s.straps i = [.regs]) (hb : P b)
    (hc : Q c) :
    ∃ t, exec i s = .next t ∧ (x ≠ 15 → P (t.reg x)) ∧ Q (t.reg 15) ∧ RegsExcept [x, 15] s t ∧
      t.pc = s.pc + 2#16 ∧ OnlyChanges [.regs] s t := by
  refine ⟨_, h, fun hx => ?_, ?_, fun r hr => ?_, rfl, hw ▸ exec_onlyChanges h rfl⟩
  · rwa [State.reg_advance, reg_setRegFlag_result hx]
  · rwa [State.reg_advance, reg_setRegFlag_flag]
  · obtain ⟨hx, hf⟩ : r ≠ x ∧ r ≠ State.vf := by simpa [State.vf] using hr
    rw [State.reg_advance, State.reg_setRegFlag, if_neg hf, if_neg hx]

end

/-! ### The values, bit by bit and as numbers -/

/-- Every bit of `r` is `op` of the bits of `a` and `b` at its place. -/
def BitwiseOf (op : Bool → Bool → Bool) (a b r : Byte) : Prop :=
  ∀ j, j < 8 → r.getLsbD j = op (a.getLsbD j) (b.getLsbD j)

theorem flagByte_decide (p : Prop) [Decidable p] : flagByte (decide p) = if p then 1 else 0 := by
  simp only [flagByte, decide_eq_true_eq]

theorem toNat_flagByte (c : Bool) : (flagByte c).toNat = c.toNat := by cases c <;> rfl

theorem toNat_sub_eq_emod (a b : Byte) : ((a - b).toNat : Int) = ((a.toNat : Int) - b.toNat) % 256 := by
  have ha := a.isLt
  have hb := b.isLt
  rw [BitVec.toNat_sub]
  omega

theorem toNat_shiftRight_one (w : Byte) : (w >>> 1).toNat = w.toNat / 2 := by
  rw [BitVec.toNat_ushiftRight, Nat.shiftRight_eq_div_pow, pow_one]

theorem toNat_shiftLeft_one (w : Byte) : (w <<< 1).toNat = w.toNat * 2 % 256 := by
  rw [BitVec.toNat_shiftLeft, Nat.shiftLeft_eq, pow_one]

theorem toNat_shrFlag (w : Byte) : (shrFlag w).toNat = w.toNat % 2 := by
  rw [shrFlag, toNat_flagByte, BitVec.getLsbD, Nat.toNat_testBit, pow_zero, Nat.div_one]

theorem toNat_shlFlag (w : Byte) : (shlFlag w).toNat = w.toNat / 128 := by
  have hw := w.isLt
  rw [shlFlag, toNat_flagByte, BitVec.getLsbD, Nat.toNat_testBit]
  omega

theorem shiftOperand_eq_shiftedValue (x y : Nibble) (s : State) :
    shiftOperand x y s = shiftedValue s.straps.shiftSource (s.reg x) (s.reg y) := by
  unfold shiftOperand shiftedValue
  cases s.straps.shiftSource <;> rfl

/-! ### The instructions -/

/-- Settles O22: the load is one register write. -/
theorem loadImmediateWritesTheRegister : Obligations.LoadImmediateWritesTheRegister :=
  ⟨decodes_of_encode_eq (fun _ _ => rfl) fun _ => formatXKK_eq_of_mask (op := 0x6), fun x kk _ =>
    exec_setReg (i := .ldImm x kk) (P := (· = kk)) rfl rfl rfl⟩

/-- Settles O23: the add is one register write, also where that register is VF. -/
theorem addImmediateHasNoFlagEffect : Obligations.AddImmediateHasNoFlagEffect :=
  ⟨decodes_of_encode_eq (fun _ _ => rfl) fun _ => formatXKK_eq_of_mask (op := 0x7), fun x kk s =>
    exec_setReg (i := .addImm x kk) (P := (·.toNat = _)) rfl rfl (BitVec.toNat_add (s.reg x) kk)⟩

/-- Settles O24: each of the four is one register write, and the value written is bitwise by the rule of its operation. -/
theorem copyAndLogicWriteOneRegister : Obligations.CopyAndLogicWriteOneRegister := fun x y s =>
  ⟨exec_setReg (i := .ldReg x y) (P := BitwiseOf (fun _ b => b) (s.reg x) (s.reg y)) rfl rfl fun _ _ => rfl,
    exec_setReg (i := .orReg x y) (P := BitwiseOf or _ _) rfl rfl fun _ _ => BitVec.getLsbD_or,
    exec_setReg (i := .andReg x y) (P := BitwiseOf and _ _) rfl rfl fun _ _ => BitVec.getLsbD_and,
    exec_setReg (i := .xorReg x y) (P := BitwiseOf xor _ _) rfl rfl fun _ _ => BitVec.getLsbD_xor⟩

/-- Settles O25: the result is the byte sum, the flag the carry out of the sum of numbers. -/
theorem addSetsVfOnOverflow : Obligations.AddSetsVfOnOverflow := fun x y s =>
  exec_setRegFlag (i := .addReg x y) (P := (·.toNat = _)) (Q := (· = _)) rfl rfl
    (BitVec.toNat_add (s.reg x) (s.reg y)) (flagByte_decide _)

/-- Settles O26: the two subtractions are one argument with the operands exchanged. -/
theorem subtractSetsVfOnNoBorrow : Obligations.SubtractSetsVfOnNoBorrow := fun x y s =>
  ⟨exec_setRegFlag (i := .subReg x y) (P := fun r => (r.toNat : Int) = _) (Q := (· = _)) rfl rfl
      (toNat_sub_eq_emod (s.reg x) (s.reg y)) (flagByte_decide _),
    exec_setRegFlag (i := .subnReg x y) (P := fun r => (r.toNat : Int) = _) (Q := (· = _)) rfl rfl
      (toNat_sub_eq_emod (s.reg y) (s.reg x)) (flagByte_decide _)⟩

/-- Settles O27: the operand is the value that the strap selects, and the bit shifted out is its lowest or its highest. -/
theorem shiftsCaptureTheLostBit : Obligations.ShiftsCaptureTheLostBit := by
  intro x y s
  dsimp only
  rw [← shiftOperand_eq_shiftedValue]
  exact ⟨exec_setRegFlag (i := .shr x y) (P := (·.toNat = _)) (Q := (·.toNat = _)) rfl rfl
      (toNat_shiftRight_one _) (toNat_shrFlag _),
    exec_setRegFlag (i := .shl x y) (P := (·.toNat = _)) (Q := (·.toNat = _)) rfl rfl
      (toNat_shiftLeft_one _) (toNat_shlFlag _)⟩

end Sys2Proof.Machine
end

section
/-! PROOFS. Index and memory (spec/42_index_memory.md R120 to R127): an instruction whose answer is one write of `I`,
the operands of these instructions as numbers, the range test of R122, a block of stores byte by byte, what the two block
transfers share, and from these the instructions. -/

namespace Sys2Proof.Machine

open Sys2Proof.Spec

/-! ### One write of `I`, and the operands as numbers -/

/-- The mask of `I` cuts to twelve bits (spec/10_state.md R22). -/
theorem toNat_and_indexMask (w : Half) : (w &&& 0x0FFF#16).toNat = w.toNat % 4096 := by
  rw [BitVec.toNat_and]
  exact Nat.and_two_pow_sub_one_eq_mod w.toNat 12

/-- An instruction that answers one write of `I`: `I` is the value cut to twelve bits, and nothing but `I` and `PC`
changes. -/
theorem exec_setI {i : Instr} {s : State} {w : Half} {n : Nat} (h : exec i s = .next (s.setI w).advance)
    (hw : writes s.straps i = [.index]) (hn : w.toNat % 4096 = n) :
    ∃ t, exec i s = .next t ∧ t.i.toNat = n ∧ t.pc = s.pc + 2#16 ∧ OnlyChanges [.index] s t :=
  ⟨_, h, (toNat_and_indexMask w).trans hn, rfl, hw ▸ exec_onlyChanges h rfl⟩

theorem toNat_add_byte_mod (w : Half) (b : Byte) :
    (w + b.zeroExtend 16).toNat % 4096 = (w.toNat + b.toNat) % 4096 := by
  have hb := b.isLt
  rw [BitVec.toNat_add, BitVec.toNat_setWidth]
  omega

theorem toNat_lowNibble (x : Nibble) (s : State) : (lowNibble x s).toNat = (s.reg x).toNat % 16 := by
  rw [lowNibble, BitVec.extractLsb'_toNat, Nat.shiftRight_zero]

/-- A glyph lies below 0x200 whatever the straps, so the mask of `I` never bites on it (R123). -/
theorem toNat_glyphAddr_mod (q : Straps) (d : Nibble) :
    (glyphAddr q d).toNat % 4096 = q.fontBase.val + 5 * d.toNat := by
  have hbase := q.fontBase.isLt
  have hd := d.isLt
  rw [glyphAddr, BitVec.toNat_ofNat]
  omega

/-- The selector `ins[11:8]` is the quotient of `nnn` by 256 (spec/30_encoding.md R72). -/
theorem extractLsb'_addr_eq_ofNat_div (nnn : Addr) : nnn.extractLsb' 8 4 = BitVec.ofNat 4 (nnn.toNat / 256) := by
  apply BitVec.eq_of_toNat_eq
  rw [BitVec.extractLsb'_toNat, BitVec.toNat_ofNat, Nat.shiftRight_eq_div_pow]

theorem toNat_jumpOffset (nnn : Addr) (s : State) :
    (jumpOffset nnn s).toNat = strapOffset s.straps.bnnnOffset (s.reg 0).toNat
      (s.reg (BitVec.ofNat 4 (nnn.toNat / 256))).toNat s.i.toNat := by
  have byte : ∀ b : Byte, (b.zeroExtend 16).toNat = b.toNat := fun b => BitVec.toNat_setWidth_of_le (by decide)
  unfold jumpOffset strapOffset
  cases s.straps.bnnnOffset with
  | v0 => exact byte _
  | vx => exact (byte _).trans (by rw [extractLsb'_addr_eq_ofNat_div])
  | i => rfl

/-- Settles O28: the load is one write of `I`, and twelve bits lose nothing of a 12-bit operand. -/
theorem loadIndexWritesTheIndex : Obligations.LoadIndexWritesTheIndex :=
  ⟨decodes_of_encode_eq (fun _ _ => rfl) fun _ => formatNNN_eq_of_mask (op := 0xA), fun nnn _ =>
    exec_setI (i := .ldI nnn) rfl rfl (by rw [addr16_toNat, Nat.mod_eq_of_lt nnn.isLt])⟩

/-- Settles O29: the two summands are at most 0xFFF, so the 16-bit sum is the sum of numbers. -/
theorem indexedJumpAddsTheStrapOffset : Obligations.IndexedJumpAddsTheStrapOffset := by
  intro nnn s hi
  refine ⟨_, rfl, ?_, exec_onlyChanges (i := .jpOff nnn) rfl rfl⟩
  have hbase := addr16_le nnn
  have hoff := jumpOffset_le nnn hi
  rw [State.setPc_pc, BitVec.toNat_add_of_lt (by omega), addr16_toNat, toNat_jumpOffset]

/-- Settles O30: the words of the row are those of the add, which the strap admits or withholds; the add is one write of
`I`. -/
theorem addToIndexWrapsAtTwelveBits : Obligations.AddToIndexWrapsAtTwelveBits := by
  refine ⟨fun ins hm => ?_, fun x s => exec_setI (i := .addIVx x) rfl rfl (toNat_add_byte_mod s.i (s.reg x))⟩
  have hins : encode (.addIVx (xOf ins)) = ins := formatXFF_eq_of_mask (op := 0xF) (kk := 0x1E) hm
  have hdec := fun fx1e => decode_encode_addIVx fx1e (xOf ins)
  rw [hins] at hdec
  exact ⟨hdec true, hdec false⟩

/-- Settles O31: the load is one write of `I`, of the address of the glyph. -/
theorem fontInstructionPointsAtTheGlyph : Obligations.FontInstructionPointsAtTheGlyph := fun x s =>
  exec_setI (i := .ldF x) rfl rfl (by rw [toNat_glyphAddr_mod, toNat_lowNibble])

/-! ### The range test (R122), and a block of stores byte by byte -/

section
variable {base n : Nat} {k : Fault} {s u : State}

/-- An access whose last byte, at offset `n`, has an address completes. -/
theorem guarded_of_fits (h : base + n ≤ 0x0FFF) :
    (if outOfRange base (n + 1) then raise k s else .next u) = .next u :=
  if_neg (by rw [outOfRange_iff]; omega)

/-- An access whose last byte, at offset `n`, lies above 0xFFF faults. -/
theorem guarded_of_beyond (h : 0x0FFF < base + n) :
    (if outOfRange base (n + 1) then raise k s else .next u) = .next { s with run := .halted k } :=
  if_pos (outOfRange_iff.mpr ⟨n.succ_pos, h⟩)

end

theorem readByte_writeBytes_add (s : State) (a : Nat) {bs : List Byte} {j : Nat} (h : j < bs.length) :
    (s.writeBytes a bs).readByte (a + j) = bs[j] := Memory.read_writeBytes_add s.straps s.mem a j bs h

theorem readByte_writeBytes_outside (s : State) {a b n : Nat} {bs : List Byte} (hlen : bs.length = n + 1)
    (h : b < a ∨ a + n < b) : (s.writeBytes a bs).readByte b = s.readByte b :=
  Memory.read_writeBytes_of_not s.straps s.mem a b bs (by omega)

/-- Settles O32: within range the stored block is the three digits, in their order. -/
theorem bcdStoresThreeDigits : Obligations.BcdStoresThreeDigits := by
  intro x s
  refine ⟨fun hfit => ?_, guarded_of_beyond⟩
  have hexec : exec (.ldB x) s = .next (s.writeBytes s.i.toNat (bcdDigits (s.reg x))).advance := guarded_of_fits hfit
  have hdigit : ∀ j (hj : j < 3), (s.writeBytes s.i.toNat (bcdDigits (s.reg x))).advance.readByte (s.i.toNat + j) =
      (bcdDigits (s.reg x))[j] := fun _ hj => readByte_writeBytes_add s s.i.toNat hj
  exact ⟨_, hexec, hdigit 0 (by decide), hdigit 1 (by decide), hdigit 2 (by decide),
    fun _ => readByte_writeBytes_outside s rfl, rfl, exec_onlyChanges hexec rfl⟩

/-! ### The block transfers -/

/-- The strap says what is added to `I`, and the mask cuts the sum to twelve bits (R125, R126). -/
theorem toNat_setBlockIndex_i (x : Nibble) (s : State) :
    (setBlockIndex x s).i.toNat = indexAfter s.straps.memIInc s.i.toNat x.toNat := by
  have hext : (x.zeroExtend 16).toNat = x.toNat := BitVec.toNat_setWidth_of_le (by decide)
  rw [setBlockIndex_i]
  unfold indexAfter
  cases s.straps.memIInc with
  | none => rfl
  | x =>
    simp only [toNat_and_indexMask, BitVec.toNat_add, hext]
    omega
  | xPlus1 =>
    simp only [toNat_and_indexMask, BitVec.toNat_add, hext, BitVec.toNat_ofNat]
    omega

/-- What both block transfers do beside their bytes and registers: `I` by the strap, `PC` by 2, and no part but the one
they transfer to and `I` (R125, R126). -/
theorem exec_blockTransfer {i : Instr} {s u : State} {x : Nibble} {p : Part}
    (h : exec i s = .next (setBlockIndex x u).advance)
    (hw : writes s.straps i = if s.straps.memIInc = .none then [p] else [p, .index])
    (hi : u.i = s.i) (hpc : u.pc = s.pc) (hrun : u.run = s.run) (hq : u.straps = s.straps) :
    (setBlockIndex x u).advance.i.toNat = indexAfter s.straps.memIInc s.i.toNat x.toNat ∧
      (setBlockIndex x u).advance.pc = s.pc + 2#16 ∧ OnlyChanges [p, .index] s (setBlockIndex x u).advance := by
  refine ⟨?_, ?_, fun r hr => exec_onlyChanges h ?_ r fun hmem => hr ?_⟩
  · rw [State.advance_i, toNat_setBlockIndex_i, hi, hq]
  · rw [State.advance_pc, setBlockIndex_pc, hpc]
  · rw [State.advance_run, setBlockIndex_run, hrun]
  · rw [hw] at hmem
    split at hmem
    · exact List.mem_cons.mpr (.inl (List.mem_singleton.mp hmem))
    · exact hmem

/-- Once the range test passes, `Fx65` loads its registers and completes (R122, R126). -/
theorem exec_loadRegs_of_fits {x : Nibble} {s : State} (h : s.i.toNat + x.toNat ≤ 0x0FFF) :
    exec (.loadRegs x) s = .next (setBlockIndex x (loadUpTo x s)).advance := guarded_of_fits h

/-- Settles O33: within range the stored block is the registers, and the rest is what both transfers share. -/
theorem blockStoreWritesTheRegisters : Obligations.BlockStoreWritesTheRegisters := by
  intro x s
  refine ⟨fun hfit => ?_, guarded_of_beyond⟩
  have hexec := exec_storeRegs_of_fits hfit
  refine ⟨_, hexec, fun j hj => ?_, fun a ha => ?_, exec_blockTransfer hexec rfl rfl rfl rfl rfl⟩ <;>
  rw [State.readByte_advance, readByte_setBlockIndex]
  · exact readByte_writeBytes_regsUpTo hj s s.i.toNat
  · exact readByte_writeBytes_outside s (length_regsUpTo x s) ha

/-- Settles O34: within range the registers are those of `loadUpTo`, and the rest is what both transfers share. -/
theorem blockLoadReadsTheRegisters : Obligations.BlockLoadReadsTheRegisters := by
  intro x s
  refine ⟨fun hfit => ?_, guarded_of_beyond⟩
  have hexec := exec_loadRegs_of_fits hfit
  refine ⟨_, hexec, fun j => ?_, exec_blockTransfer hexec rfl (loadUpTo_i s x) (loadUpTo_pc s x) (loadUpTo_run s x)
    (loadUpTo_straps s x)⟩
  rw [State.reg_advance, reg_setBlockIndex, reg_loadUpTo]

/-- Settles O35: the load reads register `j` at the address where the store left it. -/
theorem blockStoreThenLoadRestores : Obligations.BlockStoreThenLoadRestores := by
  intro x s w hfit
  obtain ⟨t, hstore, hbyte, -⟩ := (blockStoreWritesTheRegisters x s).1 hfit
  obtain ⟨u, hload, hreg, -⟩ := (blockLoadReadsTheRegisters x { t with v := w, i := s.i }).1 hfit
  refine ⟨t, u, hstore, hload, fun j hj => ?_⟩
  rw [hreg j, if_pos hj]
  exact hbyte j hj

end Sys2Proof.Machine
end

section
/-! PROOFS. The display (spec/43_display.md R130 to R133): what it means to invert a set of pixels, the inversions of one
sprite bit, one sprite row and one sprite, the model's row against the inner loop of R131, and from these the draws. -/

namespace Sys2Proof.Machine

open Sys2Proof.Spec

/-! ### Inverting a set of pixels -/

/-- From `g` to `g'` exactly the pixels in `T` are inverted, and a pixel of `T` that was set is a collision. -/
structure Inverts (T : Fin 32 → Fin 64 → Prop) (g g' : Grid) : Prop where
  inverted : ∀ {i j}, T i j → g'.1 i j = !g.1 i j
  kept : ∀ {i j}, ¬ T i j → g'.1 i j = g.1 i j
  collided : g'.2 = true ↔ g.2 = true ∨ ∃ i j, T i j ∧ g.1 i j = true

namespace Inverts

variable {T U : Fin 32 → Fin 64 → Prop} {g g' g'' : Grid}

theorem of_empty (h : ∀ i j, ¬ T i j) (g : Grid) : Inverts T g g where
  inverted hT := absurd hT (h _ _)
  kept _ := rfl
  collided := ⟨.inl, fun hc => hc.elim id fun ⟨i, j, hT, _⟩ => absurd hT (h i j)⟩

theorem congr (hTU : ∀ i j, T i j ↔ U i j) (h : Inverts T g g') : Inverts U g g' := by
  rwa [← funext₂ fun i j => propext (hTU i j)]

/-- The set of pixels and the start determine the result. -/
theorem unique (h : Inverts T g g') (h' : Inverts T g g'') : g' = g'' := by
  refine Prod.ext (funext₂ fun i j => ?_) (Bool.eq_iff_iff.mpr (h.collided.trans h'.collided.symm))
  by_cases hT : T i j
  · rw [h.inverted hT, h'.inverted hT]
  · rw [h.kept hT, h'.kept hT]

/-- Two inversions of disjoint sets are one of their union: the first leaves the pixels of the second as they were
(R131 (c)). -/
theorem union (h : Inverts T g g') (h' : Inverts U g' g'') (hdisj : ∀ i j, U i j → ¬ T i j) :
    Inverts (fun i j => T i j ∨ U i j) g g'' where
  inverted {i j} hTU := by
    by_cases hU : U i j
    · rw [h'.inverted hU, h.kept (hdisj i j hU)]
    · rw [h'.kept hU, h.inverted (hTU.resolve_right hU)]
  kept hTU := by
    obtain ⟨hT, hU⟩ := not_or.mp hTU
    rw [h'.kept hU, h.kept hT]
  collided := by
    have hU : (∃ i j, U i j ∧ g'.1 i j = true) ↔ ∃ i j, U i j ∧ g.1 i j = true :=
      exists₂_congr fun i j => and_congr_right fun hU => by rw [h.kept (hdisj i j hU)]
    simp only [h'.collided, h.collided, hU, or_and_right, exists_or, or_assoc]

/-- A loop each of whose rounds inverts a set of its own inverts the union of the sets, if these are pairwise disjoint. -/
theorem foldl_range {f : Grid → Nat → Grid} {T : Nat → Fin 32 → Fin 64 → Prop} {n : Nat}
    (hf : ∀ g k, Inverts (T k) g (f g k)) (hdisj : ∀ k < n, ∀ l < k, ∀ i j, T k i j → ¬ T l i j) (g : Grid) :
    Inverts (fun i j => ∃ k, k < n ∧ T k i j) g ((List.range n).foldl f g) := by
  induction n with
  | zero => exact of_empty (fun _ _ ⟨_, hk, _⟩ => absurd hk (Nat.not_lt_zero _)) g
  | succ n ih =>
    rw [List.range_succ, List.foldl_append]
    have hfirst := ih fun k hk => hdisj k (by omega)
    refine (hfirst.union (hf _ n) fun i j hn ⟨l, hl, hT⟩ => hdisj n (by omega) l hl i j hn hT).congr fun i j => ?_
    simp only [Nat.lt_succ_iff_lt_or_eq, or_and_right, exists_or, exists_eq_left]

/-- Two inversions of one set restore every pixel, whatever the collision flag at the start of the second (R132). -/
theorem twice {c : Bool} (h : Inverts T g g') (h' : Inverts T (g'.1, c) g'') : g''.1 = g.1 := by
  refine funext₂ fun i j => ?_
  by_cases hT : T i j
  · rw [h'.inverted hT, h.inverted hT, Bool.not_not]
  · rw [h'.kept hT, h.kept hT]

/-- Starting with no collision, there is one exactly when some pixel goes from set to unset (R131). -/
theorem collided_iff_erased {d : Fin 32 → Fin 64 → Bool} (h : Inverts T (d, false) g') :
    g'.2 = true ↔ ∃ i j, d i j = true ∧ g'.1 i j = false := by
  rw [h.collided]
  simp only [Bool.false_eq_true, false_or]
  refine exists₂_congr fun i j => ?_
  by_cases hT : T i j
  · simp [hT, h.inverted hT]
  · simp [hT, h.kept hT]

/-- A second inversion of the set collides exactly where a pixel of the set was unset before the first (R132). -/
theorem collided_twice (h : Inverts T g g') (h' : Inverts T (g'.1, false) g'') :
    g''.2 = true ↔ ∃ i j, T i j ∧ g.1 i j = false := by
  rw [h'.collided]
  simp only [Bool.false_eq_true, false_or]
  refine exists₂_congr fun i j => and_congr_right fun hT => ?_
  rw [h.inverted hT, Bool.not_eq_true']

end Inverts

/-! ### The pixels of a sprite bit and of a sprite row -/

/-- Bit `7 - c` of the sprite byte `b`, byte `r` of the sprite, is set and lands on the pixel. -/
def BitTarget (px py r : Nat) (b : Byte) (c : Nat) (row : Fin 32) (col : Fin 64) : Prop :=
  b.getLsbD (7 - c) = true ∧ (py + r) % 32 = row.val ∧ (px + c) % 64 = col.val

/-- A set bit of the sprite byte `b`, byte `r` of the sprite, lands on the pixel. `Spec.Target` is, by definition, that this
holds for some row `r < n`. -/
def RowTarget (px py r : Nat) (b : Byte) (row : Fin 32) (col : Fin 64) : Prop :=
  ∃ c, c < 8 ∧ BitTarget px py r b c row col

theorem rowTarget_iff (px py r : Nat) (b : Byte) (row : Fin 32) (col : Fin 64) :
    RowTarget px py r b row col ↔ row = spriteRow py r ∧ (spriteMask b px).getLsbD col.val = true := by
  rw [getLsbD_spriteMask b px col.val col.isLt]
  have hrow : (py + r) % 32 = row.val ↔ row = spriteRow py r := by rw [Fin.ext_iff, spriteRow, eq_comm]
  simp only [RowTarget, BitTarget, hrow]
  exact ⟨fun ⟨c, hc, hb, hr, hx⟩ => ⟨hr, c, hc, hb, hx⟩, fun ⟨hr, c, hc, hb, hx⟩ => ⟨c, hc, hb, hr, hx⟩⟩

theorem pixelBody_inverts (px py r : Nat) (b : Byte) (g : Grid) (c : Nat) :
    Inverts (BitTarget px py r b c) g (pixelBody px py r b g c) := by
  by_cases hb : b.getLsbD (7 - c) = true
  · have hat : ∀ i j, BitTarget px py r b c i j ↔
        i = ⟨(py + r) % 32, Nat.mod_lt _ (by decide)⟩ ∧ j = ⟨(px + c) % 64, Nat.mod_lt _ (by decide)⟩ := fun i j => by
      simp only [BitTarget, hb, true_and, Fin.ext_iff, eq_comm]
    rw [pixelBody, if_pos hb]
    refine ⟨fun hT => if_pos ((hat _ _).mp hT), fun hT => if_neg ((hat _ _).not.mp hT), ?_⟩
    simp only [hat, and_assoc, exists_and_left, exists_eq_left, Bool.or_eq_true]
  · rw [pixelBody, if_neg hb]
    exact .of_empty (fun _ _ hT => hb hT.1) g

/-- The inner loop: eight columns are distinct modulo 64 (R131 (c)). -/
theorem pixelBody_loop_inverts (px py r : Nat) (b : Byte) (g : Grid) :
    Inverts (RowTarget px py r b) g ((List.range 8).foldl (pixelBody px py r b) g) :=
  .foldl_range (pixelBody_inverts px py r b) (fun _ _ _ _ _ _ ⟨_, _, hk⟩ ⟨_, _, hl⟩ => by omega) g

/-- Both loops: up to 32 rows are distinct modulo 32 (R131 (c)). -/
theorem pixelLoop_inverts (px py : Nat) {n : Nat} (hn : n ≤ 32) (byte : Nat → Byte) (d : Fin 32 → Fin 64 → Bool) :
    Inverts (Target px py n byte) (d, false) (pixelLoop px py n byte d) :=
  .foldl_range (fun g r => pixelBody_loop_inverts px py r (byte r) g)
    (fun _ _ _ _ _ _ ⟨_, _, _, hk, _⟩ ⟨_, _, _, hl, _⟩ => by omega) (d, false)

/-! ### The model's draw, a row at a time -/

/-- A display of the model with its collision flag, as a function of the coordinates. -/
def gridOf (acc : Display × Bool) : Grid := (pixel acc.1, acc.2)

theorem pixel_set (d : Display) (row i : Fin 32) (w : BitVec 64) (j : Fin 64) :
    pixel (d.set row.val w row.isLt) i j = if i = row then w.getLsbD j.val else pixel d i j := by
  simp only [pixel, Fin.getElem_fin, Vector.getElem_set, eq_comm (a := row.val), ← Fin.ext_iff]
  split <;> rfl

theorem display_ext {d d' : Display} (h : pixel d = pixel d') : d = d' := by
  refine Vector.ext fun i hi => BitVec.eq_of_getLsbD_eq fun j hj => ?_
  exact congrFun (congrFun h ⟨i, hi⟩) ⟨j, hj⟩

theorem and_ne_zero_iff (w m : BitVec 64) :
    w &&& m ≠ 0#64 ↔ ∃ j : Fin 64, m.getLsbD j.val = true ∧ w.getLsbD j.val = true := by
  rw [ne_eq, BitVec.eq_of_getLsbD_eq_iff]
  simp only [BitVec.getLsbD_and, BitVec.getLsbD_zero, Bool.and_eq_false_iff, Fin.exists_iff, not_forall, not_or,
    Bool.not_eq_false, exists_prop, and_comm]

/-- One round of the model's draw: the row with the mask of the sprite byte applied, and the collision. -/
def drawByte (px py r : Nat) (b : Byte) (acc : Display × Bool) : Display × Bool :=
  (acc.1.set (spriteRow py r).val (acc.1[spriteRow py r] ^^^ spriteMask b px) (spriteRow py r).isLt,
    acc.2 || decide (acc.1[spriteRow py r] &&& spriteMask b px ≠ 0#64))

theorem drawRows_cons (px py r : Nat) (b : Byte) (bs : List Byte) (acc : Display × Bool) :
    drawRows px py r (b :: bs) acc = drawRows px py (r + 1) bs (drawByte px py r b acc) := rfl

theorem pixel_drawByte (px py r : Nat) (b : Byte) (acc : Display × Bool) (i : Fin 32) (j : Fin 64) :
    pixel (drawByte px py r b acc).1 i j =
      (pixel acc.1 i j ^^ (decide (i = spriteRow py r) && (spriteMask b px).getLsbD j.val)) := by
  rw [drawByte, pixel_set]
  split
  case isTrue hi => simp [hi, pixel]
  case isFalse hi => simp [hi]

theorem drawByte_inverts (px py r : Nat) (b : Byte) (acc : Display × Bool) :
    Inverts (RowTarget px py r b) (gridOf acc) (gridOf (drawByte px py r b acc)) where
  inverted hT := by
    obtain ⟨hi, hm⟩ := (rowTarget_iff ..).mp hT
    simp only [gridOf, pixel_drawByte, hi, hm, decide_true, Bool.and_true, Bool.xor_true]
  kept {i j} hT := by
    have hm : (decide (i = spriteRow py r) && (spriteMask b px).getLsbD j.val) = false := by
      rw [← Bool.not_eq_true, Bool.and_eq_true, decide_eq_true_eq, ← rowTarget_iff]
      exact hT
    simp only [gridOf, pixel_drawByte, hm, Bool.xor_false]
  collided := by
    simp only [gridOf, drawByte, Bool.or_eq_true, decide_eq_true_eq, and_ne_zero_iff, rowTarget_iff, and_assoc,
      exists_and_left, exists_eq_left, pixel]

/-- Row by row, the model's round and the inner loop of R131 invert the same pixels. -/
theorem gridOf_drawRows (px py : Nat) (byte : Nat → Byte) (n r : Nat) (acc : Display × Bool) :
    gridOf (drawRows px py r ((List.range' r n).map byte) acc) =
      (List.range' r n).foldl (fun g k => (List.range 8).foldl (pixelBody px py k (byte k)) g) (gridOf acc) := by
  induction n generalizing r acc with
  | zero => rfl
  | succ n ih =>
    have hrow := (drawByte_inverts px py r (byte r) acc).unique (pixelBody_loop_inverts px py r (byte r) (gridOf acc))
    rw [List.range'_succ, List.map_cons, drawRows_cons, ih, List.foldl_cons, hrow]

theorem gridOf_draw (px py n : Nat) (byte : Nat → Byte) (d : Display) :
    gridOf (draw px py ((List.range n).map byte) d) = pixelLoop px py n byte (pixel d) := by
  rw [draw, pixelLoop, List.range_eq_range', gridOf_drawRows, ← List.range_eq_range']
  rfl

/-- Settles O40: both are a loop over the rows, and round by round they invert the same pixels. -/
theorem drawRefinesThePixelLoop : Obligations.DrawRefinesThePixelLoop := gridOf_draw

/-! ### The instructions -/

/-- The pixels that `Dxyn` inverts, from the registers and the memory before it. -/
abbrev DrawTarget (x y n : Nibble) (s : State) : Fin 32 → Fin 64 → Prop :=
  Target ((s.reg x).toNat % 64) ((s.reg y).toNat % 32) n.toNat (fun r => s.readByte (s.i.toNat + r))

/-- Every byte of the sprite has an address, or there is no byte. -/
abbrev SpriteFits (n : Nibble) (s : State) : Prop := n.toNat = 0 ∨ s.i.toNat + n.toNat - 1 ≤ 0x0FFF

/-- The display and the collision flag that `Dxyn` answers. -/
def drawn (x y n : Nibble) (s : State) : Display × Bool :=
  draw (drawCol x s) (drawRow y s) (s.readBytes s.i.toNat n.toNat) s.disp

/-- The state that `Dxyn` answers. -/
def afterDraw (x y n : Nibble) (s : State) : State :=
  ({ s with disp := (drawn x y n s).1 }.setReg State.vf (collisionFlag (drawn x y n s).2)).advance

section
variable {x y n : Nibble} {s : State}

theorem exec_drw_of_fits (h : SpriteFits n s) : exec (.drw x y n) s = .next (afterDraw x y n s) :=
  if_neg (by rw [outOfRange_iff]; omega)

theorem exec_drw_of_beyond (hn : 0 < n.toNat) (h : 0x0FFF < s.i.toNat + n.toNat - 1) :
    exec (.drw x y n) s = .next { s with run := .halted .addressOutOfRange } :=
  if_pos (outOfRange_iff.mpr ⟨hn, by omega⟩)

theorem drawn_inverts (x y n : Nibble) (s : State) :
    Inverts (DrawTarget x y n s) (pixel s.disp, false) (pixel (afterDraw x y n s).disp, (drawn x y n s).2) := by
  have hn : n.toNat ≤ 32 := by have := n.isLt; omega
  have h := pixelLoop_inverts (drawCol x s) (drawRow y s) hn (fun r => s.readByte (s.i.toNat + r)) (pixel s.disp)
  rwa [← gridOf_draw] at h

theorem reg_afterDraw_vf (x y n : Nibble) (s : State) : (afterDraw x y n s).reg 15 = flagByte (drawn x y n s).2 :=
  State.reg_setReg_same _ _ _

theorem reg_afterDraw_other {r : Nibble} (h : r ≠ 15) : (afterDraw x y n s).reg r = s.reg r :=
  State.reg_setReg_other _ _ h

theorem drawTarget_afterDraw (hx : x ≠ 15) (hy : y ≠ 15) : DrawTarget x y n (afterDraw x y n s) = DrawTarget x y n s := by
  unfold DrawTarget
  rw [reg_afterDraw_other hx, reg_afterDraw_other hy]
  rfl

end

theorem flagByte_eq_one_iff {c : Bool} : flagByte c = 1 ↔ c = true := by cases c <;> decide

theorem flagByte_eq_zero_iff {c : Bool} : flagByte c = 0 ↔ c = false := by cases c <;> decide

/-- Settles O39: the draw inverts its targets, and the collision flag goes to VF last. -/
theorem drawInvertsTheTargetPixels : Obligations.DrawInvertsTheTargetPixels := by
  refine fun x y n s => ⟨fun hfit => ?_, exec_drw_of_beyond⟩
  have hexec := exec_drw_of_fits (x := x) (y := y) hfit
  have hinv := drawn_inverts x y n s
  refine ⟨_, hexec, fun _ _ => hinv.inverted, fun _ _ => hinv.kept, fun hset => ?_, fun hunset => ?_, fun r hr => ?_, rfl,
    exec_onlyChanges hexec rfl⟩
  · rw [reg_afterDraw_vf, flagByte_eq_one_iff]
    exact hinv.collided.mpr (.inr hset)
  · rw [reg_afterDraw_vf, flagByte_eq_zero_iff, ← Bool.not_eq_true, hinv.collided]
    simpa using hunset
  · exact reg_afterDraw_other (List.mem_singleton.not.mp hr)

/-- Settles O41: away from VF the second draw has the targets of the first, and inverts them back. -/
theorem drawingTwiceRestoresTheDisplay : Obligations.DrawingTwiceRestoresTheDisplay := by
  intro x y n s hx hy hfit
  have hfirst := drawn_inverts x y n s
  have hsecond := drawn_inverts x y n (afterDraw x y n s)
  rw [drawTarget_afterDraw hx hy] at hsecond
  refine ⟨_, _, exec_drw_of_fits hfit, exec_drw_of_fits (s := afterDraw x y n s) hfit,
    display_ext (hfirst.twice hsecond), ?_, ?_, ?_⟩ <;>
  rw [reg_afterDraw_vf]
  · exact flagByte_eq_one_iff.trans hsecond.collided_iff_erased
  · exact flagByte_eq_one_iff.trans (hfirst.collided_twice hsecond)
  · rw [flagByte_eq_one_iff, flagByte_eq_zero_iff]
    exact Bool.eq_false_or_eq_true _

/-- Settles O38: the clear puts the blank display plane in place of the old one. -/
theorem clearUnsetsEveryPixel : Obligations.ClearUnsetsEveryPixel :=
  ⟨decode_encode (i := .cls) rfl, decode_encode (i := .cls) rfl, fun _ =>
    ⟨_, rfl, pixel_blank, rfl, exec_onlyChanges (i := .cls) rfl rfl⟩⟩

/-- Settles O58: the event leaves the state, and the read port is the display, pixel by pixel. -/
theorem readDisplayReturnsTheGrid : Obligations.ReadDisplayReturnsTheGrid := fun _ => ⟨rfl, fun _ _ => rfl⟩

end Sys2Proof.Machine
end

section
/-! PROOFS. The random instruction (spec/44_random.md R135, R136): which bytes the mask admits, and the counter of the draws
through an instruction, which only `Cxkk` reads or writes. -/

namespace Sys2Proof.Machine

open Sys2Proof.Spec

/-! ### The masked byte (R135) -/

/-- A byte has no bit outside a mask exactly when the mask leaves it as it is. -/
theorem and_not_eq_zero_iff (r kk : Byte) : r &&& ~~~kk = 0 ↔ r &&& kk = r := by
  rw [BitVec.eq_of_getLsbD_eq_iff, BitVec.eq_of_getLsbD_eq_iff]
  refine forall₂_congr fun j hj => ?_
  cases hk : kk.getLsbD j <;> simp [hj, hk]

/-- Settles O42: the masked byte is left as it is by the mask, and a byte that the mask leaves as it is results from
itself as the random byte. -/
theorem randomByteIsMasked : Obligations.RandomByteIsMasked := by
  refine ⟨decodes_of_encode_eq (fun _ _ => rfl) fun _ => formatXKK_eq_of_mask (op := 0xC), fun x kk s =>
    ⟨?_, fun r hr => ⟨r, ?_⟩⟩⟩
  · have hreg := reg_rndWith s (Config.rnd s.draws) x kk
    have hx := (hreg x).trans (if_pos rfl)
    have hmask : Config.rnd s.draws &&& kk &&& ~~~kk = 0 :=
      (and_not_eq_zero_iff _ kk).mpr (by rw [BitVec.and_assoc, BitVec.and_self])
    exact ⟨_, rfl, hx, (congrArg (· &&& ~~~kk) hx).trans hmask,
      fun r hr => (hreg r).trans (if_neg (List.mem_singleton.not.mp hr)), rfl, exec_onlyChanges (i := .rnd x kk) rfl rfl⟩
  · rw [reg_rndWith, if_pos rfl]
    exact (and_not_eq_zero_iff r kk).mp hr

/-! ### The counter of the draws (R136) -/

/-- The state with another value of the counter that selects the random bytes (log entry 2). -/
def State.withDraws (s : State) (n : Nat) : State := { s with draws := n }

section
variable (s : State) (n : Nat)

theorem skipIf_withDraws (c : Bool) : State.skipIf c (s.withDraws n) = (State.skipIf c s).withDraws n := by
  cases c <;> rfl

theorem setBlockIndex_withDraws (x : Nibble) : setBlockIndex x (s.withDraws n) = (setBlockIndex x s).withDraws n := by
  unfold setBlockIndex
  cases h : s.straps.memIInc <;> simp only [State.withDraws, h] <;> rfl

/-- A call pushes, or faults, by `SP` alone. -/
theorem execCall_withDraws (nnn : Addr) : execCall nnn (s.withDraws n) = mapNext (·.withDraws n) (execCall nnn s) := by
  cases hp : s.push s.npc with
  | none =>
    have hfull := push_eq_none.mp hp
    rw [execCall_of_full hfull, execCall_of_full (s := s.withDraws n) hfull]
    rfl
  | some u =>
    obtain ⟨hlt, hu⟩ := push_eq_some.mp hp
    rw [execCall_of_push_eq_some hp,
      execCall_of_push_eq_some (s := s.withDraws n) (push_eq_some.mpr ⟨hlt, congrArg (·.withDraws n) hu⟩)]
    rfl

/-- A return pops, or faults, by `SP` alone. -/
theorem execRet_withDraws : execRet (s.withDraws n) = mapNext (·.withDraws n) (execRet s) := by
  cases hp : s.pop with
  | none =>
    have hempty := pop_eq_none.mp hp
    rw [execRet_of_empty hempty, execRet_of_empty (s := s.withDraws n) hempty]
    rfl
  | some p =>
    obtain ⟨hpos, ha, hu⟩ := pop_eq_some.mp hp
    rw [execRet_of_pop_eq_some hp,
      execRet_of_pop_eq_some (s := s.withDraws n) (pop_eq_some.mpr ⟨hpos, ha, congrArg (·.withDraws n) hu⟩)]
    rfl

theorem guarded_withDraws {c : Bool} {f : Fault} {u v : State} (h : v = u.withDraws n) :
    (if c then raise f (s.withDraws n) else .next v) = mapNext (·.withDraws n) (if c then raise f s else .next u) := by
  subst h
  cases c <;> rfl

/-- An instruction other than `Cxkk` neither reads nor writes the counter. -/
theorem exec_withDraws {i : Instr} (h : ∀ x kk, i ≠ .rnd x kk) :
    exec i (s.withDraws n) = mapNext (·.withDraws n) (exec i s) := by
  cases i with
  | rnd x kk => exact absurd rfl (h x kk)
  | call nnn => exact execCall_withDraws s n nnn
  | ret => exact execRet_withDraws s n
  | seImm | sneImm | seReg | sneReg | skp | sknp => exact congrArg Host.Outcome.next (skipIf_withDraws s n _)
  | drw | ldB => exact guarded_withDraws s n rfl
  | storeRegs x =>
    exact guarded_withDraws s n (congrArg State.advance (setBlockIndex_withDraws (s.writeBytes _ _) n x))
  | loadRegs x => exact guarded_withDraws s n (congrArg State.advance (setBlockIndex_withDraws (loadUpTo x s) n x))
  | _ => rfl

end

/-- Settles O43: the changed counter goes through every instruction but `Cxkk` untouched. -/
theorem onlyRndUsesTheRandomSource : Obligations.OnlyRndUsesTheRandomSource := fun _ s n h => exec_withDraws s n h

end Sys2Proof.Machine
end

section
/-! PROOFS. Input (spec/45_input.md R140 to R144): the lowest newly pressed key, what a key update and the completion of a
key wait do to the parts of the state, and from these the key skips, the key update and `Fx0A` from beginning to end. -/

namespace Sys2Proof.Machine

open Sys2Proof.Spec

theorem onlyChanges_of_subset {ps qs : List Part} {s t : State} (hsub : ps ⊆ qs) (h : OnlyChanges ps s t) :
    OnlyChanges qs s t := fun p hp => h p fun hmem => hp (hsub hmem)

/-! ### The key skips (R140 to R142) -/

theorem keyDown_lowNibble (x : Nibble) (s : State) :
    keyDown (lowNibble x s) s = s.keys.getLsbD ((s.reg x).toNat % 16) := by
  rw [keyDown, toNat_lowNibble]

/-- Settles O44: each key skip is `State.skipIf` of its condition, and its rule lists no part. -/
theorem keySkipsTestTheLatch : Obligations.KeySkipsTestTheLatch := by
  intro x s down
  have hkey : keyDown (lowNibble x s) s = true ↔ down := by rw [keyDown_lowNibble]
  refine ⟨⟨_, rfl, fun h => ?_, fun h => ?_, exec_skipIf_onlyChanges (i := .skp x) rfl⟩,
    ⟨_, rfl, fun h => ?_, fun h => ?_, exec_skipIf_onlyChanges (i := .sknp x) rfl⟩⟩ <;>
  simp [hkey, h]

/-! ### The newly pressed keys (R144) -/

section
variable {k keys : Half}

theorem getLsbD_newlyPressed {l : Nat} (hl : l < 16) :
    (newlyPressed k keys).getLsbD l = (k.getLsbD l && !keys.getLsbD l) := by
  simp [newlyPressed, hl]

/-- The lowest newly pressed key is pressed now and was not before, and every lower key pressed now was held. -/
theorem lowestKey_newlyPressed_eq_some {j : Nibble} :
    lowestKey (newlyPressed k keys) = some j ↔
      k.getLsbD j.toNat = true ∧ keys.getLsbD j.toNat = false ∧
        ∀ l : Nibble, l.toNat < j.toNat → k.getLsbD l.toNat = true → keys.getLsbD l.toNat = true := by
  have hlow : (∀ l : Nat, l < j.toNat → (newlyPressed k keys).getLsbD l = false) ↔
      ∀ l : Nibble, l.toNat < j.toNat → k.getLsbD l.toNat = true → keys.getLsbD l.toNat = true := by
    constructor
    · intro h l hl
      simpa [getLsbD_newlyPressed l.isLt] using h l.toNat hl
    · intro h l hl
      have hlt : l < 16 := hl.trans j.isLt
      simpa [getLsbD_newlyPressed hlt, Nat.mod_eq_of_lt hlt, hl] using h (BitVec.ofNat 4 l)
  rw [lowestKey_eq_some, getLsbD_newlyPressed j.isLt, hlow, Bool.and_eq_true, Bool.not_eq_true', and_assoc]

theorem lowestKey_newlyPressed_eq_none (h : ∀ j : Nibble, k.getLsbD j.toNat = true → keys.getLsbD j.toNat = true) :
    lowestKey (newlyPressed k keys) = none := by
  refine Option.eq_none_iff_forall_ne_some.mpr fun j hj => ?_
  obtain ⟨hnow, hbefore, -⟩ := lowestKey_newlyPressed_eq_some.mp hj
  exact absurd (h j hnow) (by simp [hbefore])

end

/-! ### The key update (R144) -/

section
variable {k : Half} {s : State}

theorem keyUpdate_run_of_not_awaitingKey (h : ∀ x, s.run ≠ .awaitingKey x) : (keyUpdate k s).run = s.run :=
  (keyUpdate_run k s).resolve_right fun ⟨x, _, hx, _⟩ => h x hx

theorem keyUpdate_run_of_eq_none (h : lowestKey (newlyPressed k s.keys) = none) : (keyUpdate k s).run = s.run := by
  unfold keyUpdate
  split
  · next hk => exact absurd (h.symm.trans hk) (by simp)
  · rfl

theorem keyUpdate_run_of_eq_some {x j : Nibble} (hrun : s.run = .awaitingKey x)
    (h : lowestKey (newlyPressed k s.keys) = some j) : (keyUpdate k s).run = .keyReady x j := by
  simp only [keyUpdate, hrun, h]

theorem keyUpdate_onlyChanges : OnlyChanges [.keys, .run] s (keyUpdate k s) := by
  intro p hp
  refine SameData.same ?_ (keyUpdate_straps s k)
  cases p <;> simp [SameData] at hp ⊢

end

/-- Settles O46: the run state goes by the lowest newly pressed key, which a waiting machine is handed. -/
theorem keyUpdateReplacesTheLatch : Obligations.KeyUpdateReplacesTheLatch := fun k s =>
  ⟨_, rfl, keyUpdate_keys s k, keyUpdate_pc s k, keyUpdate_onlyChanges, keyUpdate_run_of_not_awaitingKey, fun _ hrun =>
    ⟨fun hheld => keyUpdate_run_of_eq_none (lowestKey_newlyPressed_eq_none hheld), fun _ hnow hbefore hlow =>
      keyUpdate_run_of_eq_some hrun (lowestKey_newlyPressed_eq_some.mpr ⟨hnow, hbefore, hlow⟩)⟩⟩

/-! ### The key wait (R143) -/

section
variable {s : State} {x k : Nibble}

theorem completeKeyWait_onlyChanges : OnlyChanges [.regs, .run] s (completeKeyWait x k s) := by
  intro p hp
  refine SameData.same ?_ (completeKeyWait_straps s x k)
  cases p <;> simp [SameData] at hp ⊢

theorem toNat_reg_completeKeyWait : ((completeKeyWait x k s).reg x).toNat = k.toNat := by
  rw [reg_completeKeyWait, if_pos rfl]
  exact BitVec.toNat_setWidth_of_le (by decide)

theorem completeKeyWait_regsExcept : RegsExcept [x] s (completeKeyWait x k s) := fun r hr =>
  (reg_completeKeyWait s x k r).trans (if_neg (List.mem_singleton.not.mp hr))

/-- A step without effect may be taken any number of times. -/
theorem runEvents_replicate_step (h : stepEvent s = .next s) (n : Nat) :
    runEvents (List.replicate n .step) s = .next s := by
  induction n with
  | zero => rfl
  | succ n ih => simp only [List.replicate_succ, runEvents, handle, h, ih]

/-- A key update that hands the key `j` to a machine waiting for `V[x]`, and the step after it (R143, R144). -/
theorem runEvents_keyUpdate_step {keys : Half} {j : Nibble} (hrun : s.run = .awaitingKey x)
    (h : lowestKey (newlyPressed keys s.keys) = some j) :
    runEvents [.keyUpdate keys, .step] s = .next (completeKeyWait x j (keyUpdate keys s)) := by
  simp only [runEvents, handle, stepEvent_of_keyReady (keyUpdate_run_of_eq_some hrun h)]

end

/-- Settles O45: the wait holds until a key update hands over the lowest newly pressed key; the step after it is the
completion, which is the same from every `KeyReady` state. -/
theorem keyWaitCompletesOnANewlyPressedKey : Obligations.KeyWaitCompletesOnANewlyPressedKey := by
  refine ⟨fun x s => ?_, fun x k s hrun => ⟨_, stepEvent_of_keyReady hrun, toNat_reg_completeKeyWait,
    completeKeyWait_regsExcept, rfl, rfl, completeKeyWait_onlyChanges⟩⟩
  have hwait : exec (.ldVxK x) s = .next { s with run := .awaitingKey x } := rfl
  have hframe : OnlyChanges [.run] s { s with run := .awaitingKey x } := (instructionsWriteOnlyTheirParts _ _ _ hwait).1
  refine ⟨_, hwait, rfl, rfl, hframe, runEvents_replicate_step (stepEvent_of_awaitingKey rfl),
    fun j k hnow hbefore hlow => ?_⟩
  have hregs : ∀ r, (keyUpdate k { s with run := .awaitingKey x }).reg r = s.reg r :=
    keyUpdate_onlyChanges .regs (by decide)
  refine ⟨_, runEvents_keyUpdate_step rfl (lowestKey_newlyPressed_eq_some.mpr ⟨hnow, hbefore, hlow⟩),
    toNat_reg_completeKeyWait, fun r hr => (completeKeyWait_regsExcept r hr).trans (hregs r), ?_, rfl, ?_, ?_⟩
  · rw [completeKeyWait_pc, keyUpdate_pc]
  · rw [completeKeyWait_keys, keyUpdate_keys]
  · exact onlyChanges_trans (onlyChanges_of_subset (by simp) hframe)
      (onlyChanges_trans (onlyChanges_of_subset (by simp) keyUpdate_onlyChanges)
        (onlyChanges_of_subset (by simp) completeKeyWait_onlyChanges))

end Sys2Proof.Machine
end

section
/-! PROOFS. The timer moves (spec/46_timers.md R147 to R149): one register write, and one write of each timer. -/

namespace Sys2Proof.Machine

open Sys2Proof.Spec

/-- Settles O48: `Fx07` is one register write; `Fx15` and `Fx18` each write the one timer that their rule lists. -/
theorem timerMovesCopyTheTimers : Obligations.TimerMovesCopyTheTimers := fun x s =>
  ⟨exec_setReg (i := .ldVxDt x) (P := (· = s.dt)) rfl rfl rfl,
    ⟨_, rfl, rfl, rfl, exec_onlyChanges (i := .ldDtVx x) rfl rfl⟩,
    ⟨_, rfl, rfl, rfl, exec_onlyChanges (i := .ldStVx x) rfl rfl⟩⟩

end Sys2Proof.Machine
end

section
/-! PROOFS. Faults and the key wait (spec/60_exceptions.md R150 to R171): the conditions of the taxonomy as a relation, which
is what a `Step` raises and no more, and from it fault entry; the status port; how the key wait begins and ends. -/

namespace Sys2Proof.Machine

open Sys2Proof.Spec

/-! ### The taxonomy as a relation -/

/-- The instruction raises the fault in the state (R152 to R154). -/
inductive Raises : Instr → State → Fault → Prop
  | stackFull {nnn s} (h : s.sp.val = 16) : Raises (.call nnn) s .stackOverflow
  | stackEmpty {s} (h : s.sp.val = 0) : Raises .ret s .stackUnderflow
  | digitsBeyond {x s} (h : 0x0FFF < s.i.toNat + 2) : Raises (.ldB x) s .addressOutOfRange
  | storeBeyond {x s} (h : 0x0FFF < s.i.toNat + x.toNat) : Raises (.storeRegs x) s .addressOutOfRange
  | loadBeyond {x s} (h : 0x0FFF < s.i.toNat + x.toNat) : Raises (.loadRegs x) s .addressOutOfRange
  | spriteBeyond {x y n s} (hn : 0 < n.toNat) (h : 0x0FFF < s.i.toNat + n.toNat - 1) :
      Raises (.drw x y n) s .addressOutOfRange

/-- A `Step` of the running machine raises the fault: at the fetch, at decoding, or in the instruction, in the order of
R158. -/
inductive StepRaises (s : State) : Fault → Prop
  | fetchBeyond (h : 0x0FFE < s.pc.toNat) : StepRaises s .addressOutOfRange
  | noRow (hpc : s.pc.toNat ≤ 0x0FFE) (h : ¬ Valid s.straps.xFx1e (fetchWord s)) : StepRaises s .invalidOpcode
  | instruction {i k} (hpc : s.pc.toNat ≤ 0x0FFE) (hd : decode s.straps.xFx1e (fetchWord s) = .ok i)
      (h : Raises i s k) : StepRaises s k

section
variable {i : Instr} {s t : State} {k : Fault}

theorem exec_of_raises (h : Raises i s k) : exec i s = raise k s := by
  cases h with
  | stackFull h => exact execCall_of_full h
  | stackEmpty h => exact execRet_of_empty h
  | digitsBeyond h | storeBeyond h | loadBeyond h => exact guarded_of_beyond h
  | spriteBeyond hn h => exact exec_drw_of_beyond hn h

/-- Where an instruction halts the machine, the condition of that fault holds: a completed one leaves the run state, and
the key wait is no halt. -/
theorem raises_of_exec (h : exec i s = .next t) (hs : s.run ≠ .halted k) (hk : t.run = .halted k) : Raises i s k := by
  cases i with
  | call nnn =>
    obtain ⟨hfull, rfl⟩ | ⟨u, hu, rfl⟩ := execCall_cases h
    · cases hk
      exact .stackFull hfull
    · exact absurd ((sameData_push (p := .run) (by decide) hu).symm.trans hk) hs
  | ret =>
    obtain ⟨hempty, rfl⟩ | ⟨a, u, hu, rfl⟩ := execRet_cases h
    · cases hk
      exact .stackEmpty hempty
    · exact absurd ((sameData_pop (p := .run) (by decide) hu).symm.trans hk) hs
  | drw x y n =>
    obtain ⟨hr, rfl⟩ | ⟨-, rfl⟩ := guarded_cases h
    · cases hk
      obtain ⟨hn, hlast⟩ := outOfRange_iff.mp hr
      exact .spriteBeyond hn (by omega)
    · exact absurd hk hs
  | ldB x =>
    obtain ⟨hr, rfl⟩ | ⟨-, rfl⟩ := guarded_cases h
    · cases hk
      exact .digitsBeyond (outOfRange_iff.mp hr).2
    · exact absurd hk hs
  | storeRegs x =>
    obtain ⟨hr, rfl⟩ | ⟨-, rfl⟩ := guarded_cases h
    · cases hk
      exact .storeBeyond (outOfRange_iff.mp hr).2
    · exact absurd (by simpa using hk) hs
  | loadRegs x =>
    obtain ⟨hr, rfl⟩ | ⟨-, rfl⟩ := guarded_cases h
    · cases hk
      exact .loadBeyond (outOfRange_iff.mp hr).2
    · exact absurd (by simpa using hk) hs
  | ldVxK =>
    cases h
    cases hk
  | _ =>
    cases h
    exact absurd (by simpa using hk) hs

theorem outOfRange_fetch_eq_false {a : Nat} : outOfRange a 2 = false ↔ a ≤ 0x0FFE := by
  rw [outOfRange_eq_false]
  omega

theorem outOfRange_fetch_eq_true {a : Nat} : outOfRange a 2 = true ↔ 0x0FFE < a := by
  rw [outOfRange_iff]
  omega

theorem decode_error_of_not_valid {fx1e : Bool} {ins : Half} (h : ¬ Valid fx1e ins) :
    decode fx1e ins = .error (.invalidOpcode ins) := decodingFollowsTheOpcodeTable.2.2.1 fx1e ins h

theorem fetchExecute_of_stepRaises (h : StepRaises s k) : fetchExecute s = raise k s := by
  cases h with
  | fetchBeyond h => exact fetchExecute_of_outOfRange (outOfRange_fetch_eq_true.mpr h)
  | noRow hpc h => exact fetchExecute_of_decode_error (outOfRange_fetch_eq_false.mpr hpc) (decode_error_of_not_valid h)
  | instruction hpc hd h =>
    exact (fetchExecute_of_decode_ok (outOfRange_fetch_eq_false.mpr hpc) hd).trans (exec_of_raises h)

/-- Where a `Step` of the running machine ends halted, a condition of the taxonomy holds. -/
theorem stepRaises_of_fetchExecute (h : fetchExecute s = .next t) (hs : s.run ≠ .halted k) (hk : t.run = .halted k) :
    StepRaises s k := by
  have ofSomeKind : ∀ {j}, StepRaises s j → StepRaises s k := fun hr => by
    obtain rfl := Host.Outcome.next.inj ((fetchExecute_of_stepRaises hr).symm.trans h)
    cases hk
    exact hr
  by_cases hpc : s.pc.toNat ≤ 0x0FFE
  · by_cases hv : Valid s.straps.xFx1e (fetchWord s)
    · obtain ⟨i, hd⟩ := decodingFollowsTheOpcodeTable.1 _ _ hv
      have he := fetchExecute_of_decode_ok (outOfRange_fetch_eq_false.mpr hpc) hd
      exact .instruction hpc hd (raises_of_exec (he.symm.trans h) hs hk)
    · exact ofSomeKind (.noRow hpc hv)
  · exact ofSomeKind (.fetchBeyond (Nat.lt_of_not_le hpc))

/-- A `Step` that ends halted began in a machine halted with the same kind and left it as it was, or in a running machine
in which the taxonomy raises that kind. -/
theorem stepEvent_halted_cases (h : stepEvent s = .next t) (hk : t.run = .halted k) :
    (s.run = .halted k ∧ t = s) ∨ (s.run = .running ∧ StepRaises s k) := by
  cases hrun : s.run with
  | running =>
    exact .inr ⟨rfl, stepRaises_of_fetchExecute ((stepEvent_of_running hrun).symm.trans h) (by simp [hrun]) hk⟩
  | awaitingKey x =>
    obtain rfl := Host.Outcome.next.inj ((stepEvent_of_awaitingKey hrun).symm.trans h)
    cases hrun.symm.trans hk
  | keyReady x j =>
    obtain rfl := Host.Outcome.next.inj ((stepEvent_of_keyReady hrun).symm.trans h)
    cases hk
  | halted f =>
    obtain rfl := Host.Outcome.next.inj ((stepEvent_of_halted hrun).symm.trans h)
    exact .inl ⟨hrun.symm.trans hk, rfl⟩

theorem stepEvent_of_stepRaises (hrun : s.run = .running) (h : StepRaises s k) : stepEvent s = raise k s :=
  (stepEvent_of_running hrun).trans (fetchExecute_of_stepRaises h)

/-- The conditions of the taxonomy are exactly those under which a `Step` of the running machine halts it. -/
theorem stepEvent_halts_iff (hrun : s.run = .running) (h : stepEvent s = .next t) :
    t.run = .halted k ↔ StepRaises s k := by
  constructor
  · intro hk
    obtain ⟨hs, -⟩ | ⟨-, hr⟩ := stepEvent_halted_cases h hk
    · cases hrun.symm.trans hs
    · exact hr
  · intro hr
    rw [← Host.Outcome.next.inj ((stepEvent_of_stepRaises hrun hr).symm.trans h)]

end

/-! ### Each kind of the taxonomy -/

section
variable {s : State}

theorem stepRaises_invalidOpcode_iff :
    StepRaises s .invalidOpcode ↔ s.pc.toNat ≤ 0x0FFE ∧ ¬ Valid s.straps.xFx1e (fetchWord s) :=
  ⟨fun | .noRow hpc h => ⟨hpc, h⟩, fun ⟨hpc, h⟩ => .noRow hpc h⟩

theorem stepRaises_stackOverflow_iff :
    StepRaises s .stackOverflow ↔
      ∃ nnn, (s.pc.toNat ≤ 0x0FFE ∧ decode s.straps.xFx1e (fetchWord s) = .ok (.call nnn)) ∧ s.sp.val = 16 :=
  ⟨fun | .instruction hpc hd (.stackFull h) => ⟨_, ⟨hpc, hd⟩, h⟩,
    fun ⟨_, ⟨hpc, hd⟩, h⟩ => .instruction hpc hd (.stackFull h)⟩

theorem stepRaises_stackUnderflow_iff :
    StepRaises s .stackUnderflow ↔
      (s.pc.toNat ≤ 0x0FFE ∧ decode s.straps.xFx1e (fetchWord s) = .ok .ret) ∧ s.sp.val = 0 :=
  ⟨fun | .instruction hpc hd (.stackEmpty h) => ⟨⟨hpc, hd⟩, h⟩,
    fun ⟨⟨hpc, hd⟩, h⟩ => .instruction hpc hd (.stackEmpty h)⟩

theorem stepRaises_addressOutOfRange_iff :
    StepRaises s .addressOutOfRange ↔
      let runs := fun i : Instr => s.pc.toNat ≤ 0x0FFE ∧ decode s.straps.xFx1e (fetchWord s) = .ok i
      0x0FFE < s.pc.toNat ∨ (∃ x, runs (.ldB x) ∧ 0x0FFF < s.i.toNat + 2) ∨
      (∃ x, (runs (.storeRegs x) ∨ runs (.loadRegs x)) ∧ 0x0FFF < s.i.toNat + x.toNat) ∨
      ∃ x y n, runs (.drw x y n) ∧ 0 < n.toNat ∧ 0x0FFF < s.i.toNat + n.toNat - 1 := by
  constructor
  · rintro (h | _ | ⟨hpc, hd, _ | _ | h | h | h | ⟨hn, h⟩⟩)
    · exact .inl h
    · exact .inr (.inl ⟨_, ⟨hpc, hd⟩, h⟩)
    · exact .inr (.inr (.inl ⟨_, .inl ⟨hpc, hd⟩, h⟩))
    · exact .inr (.inr (.inl ⟨_, .inr ⟨hpc, hd⟩, h⟩))
    · exact .inr (.inr (.inr ⟨_, _, _, ⟨hpc, hd⟩, hn, h⟩))
  · rintro (h | ⟨x, ⟨hpc, hd⟩, h⟩ | ⟨x, ⟨hpc, hd⟩ | ⟨hpc, hd⟩, h⟩ | ⟨x, y, n, ⟨hpc, hd⟩, hn, h⟩)
    · exact .fetchBeyond h
    · exact .instruction hpc hd (.digitsBeyond h)
    · exact .instruction hpc hd (.storeBeyond h)
    · exact .instruction hpc hd (.loadBeyond h)
    · exact .instruction hpc hd (.spriteBeyond hn h)

/-- A `Step` reads no image (R155). -/
theorem not_stepRaises_imageTooLarge : ¬ StepRaises s .imageTooLarge := fun | .instruction _ _ h => nomatch h

end

/-- An event other than a `Step` keeps the machine halted that is halted, and halts one only as a `Reset` with an oversize
image (R155). -/
theorem handle_halted_cases {e : Event} {s t : State} {k : Fault} (he : e ≠ .step) (h : handle e s = .next t)
    (hk : t.run = .halted k) :
    s.run = .halted k ∨ (k = .imageTooLarge ∧ ∃ image q, e = .reset image q ∧ 3584 < image.length) := by
  cases e with
  | step => exact absurd rfl he
  | tick60 | readDisplay =>
    cases h
    exact .inl hk
  | keyUpdate j =>
    cases h
    obtain hr | ⟨x, l, -, hr⟩ := keyUpdate_run j s
    · exact .inl (hr.symm.trans hk)
    · cases hr.symm.trans hk
  | reset image q =>
    cases h
    by_cases hfit : image.length ≤ Config.imageMax
    · rw [resetWith_of_fits hfit] at hk
      cases hk
    · rw [resetWith_of_oversize hfit] at hk
      cases hk
      exact .inr ⟨rfl, image, q, rfl, Nat.lt_of_not_le hfit⟩

/-- Settles O6: a `Step` of the running machine halts it exactly as the relation says, and the relation is read off kind by
kind. -/
theorem stepFaultsExactlyAsTheTaxonomySays : Obligations.StepFaultsExactlyAsTheTaxonomySays := by
  refine ⟨fun s t hrun h => ?_, fun s t k hrun h hk => ?_, fun _ _ _ _ => handle_halted_cases⟩
  · have halts := fun k => stepEvent_halts_iff (k := k) hrun h
    exact ⟨(halts _).trans stepRaises_invalidOpcode_iff, (halts _).trans stepRaises_stackOverflow_iff,
      (halts _).trans stepRaises_stackUnderflow_iff, (halts _).trans stepRaises_addressOutOfRange_iff,
      (halts _).not.mpr not_stepRaises_imageTooLarge⟩
  · obtain ⟨hs, -⟩ | ⟨hs, -⟩ := stepEvent_halted_cases h hk
    · exact hs
    · exact absurd hs hrun

theorem haltedFlag_eq_true_iff {s : State} : haltedFlag s = true ↔ ∃ k, s.run = .halted k := by
  unfold haltedFlag
  cases s.run <;> simp

/-- Settles O7: the machine was not halted before, so the `Step` is the entry of a fault of the taxonomy. -/
theorem faultsArePrecise : Obligations.FaultsArePrecise := by
  intro s t k hs h hk
  obtain ⟨hhalted, -⟩ | ⟨hrun, hr⟩ := stepEvent_halted_cases h hk
  · exact absurd (haltedFlag_eq_true_iff.mpr ⟨k, hhalted⟩) (by simp [hs])
  · exact (Host.Outcome.next.inj ((stepEvent_of_stepRaises hrun hr).symm.trans h)).symm

/-! ### The status port (R150, R168) -/

theorem faultCode_of_halted {s : State} {k : Fault} (h : s.run = .halted k) : faultCode s = k.code := by
  simp only [faultCode, h]

theorem faultCode_of_not_halted {s : State} (h : ∀ k, s.run ≠ .halted k) : faultCode s = 0 := by
  unfold faultCode
  split
  · exact absurd ‹_› (h _)
  all_goals rfl

/-- Settles O16: the codes of the five kinds are 1 to 5, all different. -/
theorem statusPortReportsTheFaultKind : Obligations.StatusPortReportsTheFaultKind := by
  intro s
  refine ⟨haltedFlag_eq_true_iff, ?_⟩
  rw [← Bool.not_eq_true, haltedFlag_eq_true_iff]
  by_cases hs : ∃ k, s.run = .halted k
  · obtain ⟨k, hk⟩ := hs
    rw [faultCode_of_halted hk, hk]
    cases k <;> simp [Fault.code]
  · have hno := not_exists.mp hs
    simp [faultCode_of_not_halted hno, hno]

/-! ### The key wait -/

/-- A `Step` leaves a waiting machine as it is, and begins a wait only as the `Fx0A` that the running machine fetches
(spec/45_input.md R143). -/
theorem stepEvent_awaitingKey_cases {s t : State} {x : Nibble} (h : stepEvent s = .next t)
    (ht : t.run = .awaitingKey x) :
    s.run = .awaitingKey x ∨
      (s.run = .running ∧ s.pc.toNat ≤ 0x0FFE ∧ decode s.straps.xFx1e (fetchWord s) = .ok (.ldVxK x)) := by
  cases hrun : s.run with
  | running =>
    rw [stepEvent_of_running hrun] at h
    obtain ⟨k, hf⟩ | ⟨i, hpc, hd, he⟩ := fetchExecute_cases s
    · obtain rfl := Host.Outcome.next.inj (hf.symm.trans h)
      cases ht
    · obtain hr | ⟨k, hr⟩ | ⟨y, rfl, rfl⟩ := exec_run (he.symm.trans h)
      · cases (hr.trans hrun).symm.trans ht
      · cases hr.symm.trans ht
      · cases ht
        exact .inr ⟨rfl, outOfRange_fetch_eq_false.mp hpc, hd⟩
  | awaitingKey y =>
    obtain rfl := Host.Outcome.next.inj ((stepEvent_of_awaitingKey hrun).symm.trans h)
    exact .inl (hrun.symm.trans ht)
  | keyReady y j =>
    obtain rfl := Host.Outcome.next.inj ((stepEvent_of_keyReady hrun).symm.trans h)
    cases ht
  | halted k =>
    obtain rfl := Host.Outcome.next.inj ((stepEvent_of_halted hrun).symm.trans h)
    cases hrun.symm.trans ht

section
variable {e : Event} {x : Nibble} {s t : State}

/-- A wait ends with a reset, or with a key that is pressed now and was not before (spec/45_input.md R144). -/
theorem keyWait_left (h : handle e s = .next t) (hs : s.run = .awaitingKey x) (ht : t.run ≠ .awaitingKey x) :
    (∃ image q, e = .reset image q) ∨
      ∃ k j, e = .keyUpdate k ∧ t.run = .keyReady x j ∧ k.getLsbD j.toNat = true ∧ s.keys.getLsbD j.toNat = false := by
  cases e with
  | step =>
    obtain rfl := Host.Outcome.next.inj ((stepEvent_of_awaitingKey hs).symm.trans h)
    exact absurd hs ht
  | tick60 | readDisplay =>
    cases h
    exact absurd hs ht
  | keyUpdate k =>
    cases h
    cases hl : lowestKey (newlyPressed k s.keys) with
    | none => exact absurd ((keyUpdate_run_of_eq_none hl).trans hs) ht
    | some j =>
      obtain ⟨hnow, hbefore, -⟩ := lowestKey_newlyPressed_eq_some.mp hl
      exact .inr ⟨k, j, rfl, keyUpdate_run_of_eq_some hs hl, hnow, hbefore⟩
  | reset image q => exact .inl ⟨image, q, rfl⟩

/-- A wait begins with a `Step`: no other event brings a machine into it. -/
theorem keyWait_entered (h : handle e s = .next t) (hs : s.run ≠ .awaitingKey x) (ht : t.run = .awaitingKey x) :
    e = .step ∧ s.run = .running ∧ s.pc.toNat ≤ 0x0FFE ∧ decode s.straps.xFx1e (fetchWord s) = .ok (.ldVxK x) := by
  cases e with
  | step => exact ⟨rfl, (stepEvent_awaitingKey_cases h ht).resolve_left hs⟩
  | tick60 | readDisplay =>
    cases h
    exact absurd ht hs
  | keyUpdate k =>
    cases h
    obtain hr | ⟨y, j, -, hr⟩ := keyUpdate_run k s
    · exact absurd (hr.symm.trans ht) hs
    · cases hr.symm.trans ht
  | reset image q =>
    cases h
    obtain hr | hr := resetWith_run image q s.draws s.pending <;> cases hr.symm.trans ht

end

/-- Settles O47: the way out and the way in, event by event. -/
theorem keyWaitIsEnteredAndLeftAsStated : Obligations.KeyWaitIsEnteredAndLeftAsStated :=
  fun _ _ _ _ h => ⟨keyWait_left h, keyWait_entered h⟩

end Sys2Proof.Machine
end

section
/-! PROOFS. The machine at rest (spec/60_exceptions.md R157, R165 to R167; spec/70_reset_and_hazards.md R189): what the ticks
do to a timer, what a run without resets does to a machine on which a `Step` has no effect, and from these the halted
machine, the settled machine and the end of the delay timer under a fair schedule. -/

namespace Sys2Proof.Machine

open Sys2Proof.Spec

/-! ### The ticks (R165, R167) -/

theorem toNat_decrement (b : Byte) : (decrement b).toNat = b.toNat - 1 := by
  unfold decrement
  split
  case isTrue h => rw [h]; rfl
  case isFalse h => bv_omega

theorem toNat_iterate_decrement (n : Nat) (b : Byte) : (decrement^[n] b).toNat = b.toNat - n := by
  induction n with
  | zero => rfl
  | succ n ih => rw [Function.iterate_succ_apply', toNat_decrement, ih, Nat.sub_sub]

/-- The state with other timers and another key latch: all that the events beside `Step` and `Reset` write in a machine
that does not wait for a key. -/
def State.withInputs (s : State) (d b : Byte) (k : Half) : State := { s with dt := d, st := b, keys := k }

/-- The state after `n` ticks and the replacement of the key latch by `k`. -/
def State.ticked (s : State) (n : Nat) (k : Half) : State := s.withInputs (decrement^[n] s.dt) (decrement^[n] s.st) k

theorem ticked_ticked (s : State) (m n : Nat) (j k : Half) : (s.ticked m j).ticked n k = s.ticked (n + m) k := by
  simp only [State.ticked, State.withInputs, Function.iterate_add_apply]

theorem ticked_onlyChanges (s : State) (n : Nat) (k : Half) : OnlyChanges [.delay, .sound, .keys] s (s.ticked n k) := by
  intro p hp
  refine SameData.same ?_ rfl
  cases p <;> simp [SameData, State.ticked, State.withInputs] at hp ⊢

/-- The ticks leave the key latch as well. -/
theorem ticked_keys_onlyChanges (s : State) (n : Nat) : OnlyChanges [.delay, .sound] s (s.ticked n s.keys) := by
  intro p hp
  by_cases hk : p = .keys
  · subst hk
    rfl
  · exact ticked_onlyChanges s n s.keys p (by simpa [hk] using hp)

theorem runEvents_replicate_tick60 (n : Nat) (s : State) :
    runEvents (List.replicate n .tick60) s = .next (s.ticked n s.keys) := by
  induction n generalizing s with
  | zero => rfl
  | succ n ih => exact (ih (tick60 s)).trans (congrArg Host.Outcome.next (ticked_ticked s 1 n s.keys s.keys))

/-- Settles O50: `n` ticks iterate the decrement of both timers. -/
theorem timersCountDownAndStayAtZero : Obligations.TimersCountDownAndStayAtZero := fun n s =>
  ⟨_, runEvents_replicate_tick60 n s, toNat_iterate_decrement n s.dt, toNat_iterate_decrement n s.st, rfl,
    ticked_keys_onlyChanges s n⟩

/-- Settles O49: one tick decrements both timers. -/
theorem tickDecrementsBothTimers : Obligations.TickDecrementsBothTimers := fun s =>
  ⟨_, rfl, toNat_decrement s.dt, toNat_decrement s.st, rfl, ticked_keys_onlyChanges s 1⟩

/-! ### Runs of a machine at rest -/

/-- The machine is at rest: whatever the timers and the key latch hold, a `Step` has no effect; and no key can wake it. -/
structure State.AtRest (s : State) : Prop where
  notWaiting : ∀ x, s.run ≠ .awaitingKey x
  stepIdle : ∀ d b k, stepEvent (s.withInputs d b k) = .next (s.withInputs d b k)

theorem State.AtRest.ticked {s : State} (h : s.AtRest) (n : Nat) (k : Half) : (s.ticked n k).AtRest :=
  ⟨h.notWaiting, h.stepIdle⟩

theorem keyUpdate_of_not_awaitingKey {s : State} (h : ∀ x, s.run ≠ .awaitingKey x) (k : Half) :
    keyUpdate k s = { s with keys := k } := by
  unfold keyUpdate
  split
  · exact absurd ‹_› (h _)
  · rfl

theorem noReset_cons {e : Event} {es : List Event} :
    noReset (e :: es) ↔ (∀ image q, e ≠ .reset image q) ∧ noReset es := by
  simp only [noReset, List.mem_cons, not_or, forall_and, ne_eq, eq_comm]

/-- A machine at rest goes by the ticks and the last key latch of an event. -/
theorem handle_of_atRest {s : State} (h : s.AtRest) {e : Event} (he : ∀ image q, e ≠ .reset image q) :
    ∃ k, handle e s = .next (s.ticked ([e].count .tick60) k) := by
  cases e with
  | step => exact ⟨s.keys, h.stepIdle s.dt s.st s.keys⟩
  | tick60 => exact ⟨s.keys, rfl⟩
  | keyUpdate k => exact ⟨k, congrArg Host.Outcome.next (keyUpdate_of_not_awaitingKey h.notWaiting k)⟩
  | readDisplay => exact ⟨s.keys, rfl⟩
  | reset image q => exact absurd rfl (he image q)

/-- Over any events but `Reset` a machine at rest ends in the state it began in, but for the ticks and the key latch. -/
theorem runEvents_of_atRest {s : State} (h : s.AtRest) {es : List Event} (hes : noReset es) :
    ∃ k, runEvents es s = .next (s.ticked (es.count .tick60) k) := by
  induction es generalizing s with
  | nil => exact ⟨s.keys, rfl⟩
  | cons e es ih =>
    obtain ⟨he, hes⟩ := noReset_cons.mp hes
    obtain ⟨j, hj⟩ := handle_of_atRest h he
    obtain ⟨k, hk⟩ := ih (h.ticked ([e].count .tick60) j) hes
    refine ⟨k, ?_⟩
    rw [List.count_cons, ← List.count_singleton, ← ticked_ticked s _ _ j k]
    simp only [runEvents, hj, hk]

/-! ### The halted machine (R157) -/

theorem atRest_of_halted {s : State} {k : Fault} (h : s.run = .halted k) : s.AtRest :=
  ⟨fun _ hx => (nomatch h.symm.trans hx), fun d b j => stepEvent_of_halted (s := s.withInputs d b j) h⟩

/-- Settles O8: a halted machine is at rest. -/
theorem haltedMachineChangesOnlyTimersAndKeys : Obligations.HaltedMachineChangesOnlyTimersAndKeys := by
  intro s t k es hs
  refine ⟨stepEvent_of_halted hs, fun hes h => ?_⟩
  obtain ⟨j, hj⟩ := runEvents_of_atRest (atRest_of_halted hs) hes
  obtain rfl := Host.Outcome.next.inj (hj.symm.trans h)
  exact ⟨hs, rfl, ticked_onlyChanges s _ j⟩

/-! ### The settled machine (R189) -/

/-- The jump that a settled machine executes is a jump to where it stands (spec/40_control_flow.md R91). -/
theorem stepEvent_of_settled {s : State} (h : s.Settled) : stepEvent s = .next s := by
  obtain ⟨hrun, hpc, nnn, hword, htarget⟩ := h
  have hd : decode s.straps.xFx1e (fetchWord s) = .ok (.jp nnn) := by
    rw [hword]
    exact decode_encode rfl
  calc stepEvent s = .next (s.setPc (addr16 nnn)) := stepEvent_of_decode_ok hrun hpc hd
    _ = .next s := by rw [← htarget]; rfl

/-- Whether the machine is settled depends on no timer and no key. -/
theorem State.Settled.withInputs {s : State} (h : s.Settled) (d b : Byte) (k : Half) : (s.withInputs d b k).Settled := h

theorem State.Settled.atRest {s : State} (h : s.Settled) : s.AtRest :=
  ⟨fun _ hx => (nomatch h.1.symm.trans hx), fun d b k => stepEvent_of_settled (h.withInputs d b k)⟩

/-- Settles O56: a settled machine is at rest. -/
theorem settledRunsStaySettled : Obligations.SettledRunsStaySettled := by
  intro es s t hs hes h
  obtain ⟨k, hk⟩ := runEvents_of_atRest hs.atRest hes
  obtain rfl := Host.Outcome.next.inj (hk.symm.trans h)
  exact ⟨hs.withInputs _ _ k, rfl, ticked_onlyChanges s _ k, toNat_iterate_decrement _ s.dt⟩

/-! ### Fair schedules (R166) -/

section
variable {f : Schedule}

theorem count_first (f : Schedule) (m : Nat) : (f.first m).count .tick60 = Nat.count (f · = .tick60) m := by
  induction m with
  | zero => rfl
  | succ m ih =>
    rw [Schedule.first, List.range_succ, List.map_append, List.count_append, Nat.count_succ, ← ih]
    simp [Schedule.first, List.count_singleton]

/-- A fair schedule holds any number of ticks in its beginnings. -/
theorem Schedule.Fair.exists_count_tick60 (hf : f.Fair) (c : Nat) :
    ∃ n, ∀ m, n ≤ m → c ≤ (f.first m).count .tick60 := by
  have hinf : {m | f m = .tick60}.Infinite := Nat.frequently_atTop_iff_infinite.mp
    (Filter.frequently_atTop.mpr fun n => (hf n).2)
  obtain ⟨n, hn⟩ := Nat.surjective_count_of_infinite_setOfPred hinf c
  refine ⟨n, fun m hm => ?_⟩
  rw [count_first, ← hn]
  exact Nat.count_monotone _ hm

theorem noReset_first (h : ∀ n image q, f n ≠ .reset image q) (m : Nat) : noReset (f.first m) := by
  intro image q hmem
  obtain ⟨n, -, hn⟩ := List.mem_map.mp hmem
  exact h n image q hn

end

/-- Settles O57: once 255 ticks have come, the delay timer of the settled machine is 0. -/
theorem fairSchedulesRunTheDelayTimerOut : Obligations.FairSchedulesRunTheDelayTimerOut := by
  intro f s hf hno hs
  obtain ⟨n, hn⟩ := hf.exists_count_tick60 255
  refine ⟨n, fun m hm => ?_⟩
  obtain ⟨t, ht⟩ := runEvents_answers (f.first m) s
  obtain ⟨-, -, -, hdt⟩ := settledRunsStaySettled (f.first m) s t hs (noReset_first hno m) ht
  have hcount := hn m hm
  have hlt := s.dt.isLt
  have hzero : s.dt.toNat - (f.first m).count .tick60 = 0 := by omega
  exact ⟨t, ht, BitVec.eq_of_toNat_eq (hdt.trans hzero)⟩

end Sys2Proof.Machine
end

section
/-! PROOFS. The memory of reset (spec/70_reset_and_hazards.md R180 to R183): the image and the font byte by byte, and what an
oversize image leaves of an ordinary reset. -/

namespace Sys2Proof.Machine

/-- A reset of either kind writes nothing below 0x200. -/
theorem readByte_resetWith_of_lt {a : Nat} (ha : a < 0x200) (image : List Byte) (q : Straps) (n : Nat) (es : List Event) :
    (resetWith image q n es).readByte a = resetByte q a := by
  have hbelow : ∀ bs : List Byte, Memory.read q (Memory.writeBytes q [] Config.entry bs) a = resetByte q a := fun bs =>
    Memory.read_writeBytes_of_not q [] Config.entry a bs fun h => absurd h.1 (Nat.not_le.mpr ha)
  unfold resetWith
  split <;> simp only [State.readByte, State.resetBase_straps, hbelow]

/-- Byte `j` of the font is in place through `resetByte` (R182). -/
theorem resetByte_font (q : Straps) (j : Fin 80) : resetByte q (q.fontBase.val + j.val) = q.fontData[j] := by
  rw [resetByte, dif_pos ⟨Nat.le_add_right _ _, Nat.add_lt_add_left j.isLt _⟩]
  simp only [Nat.add_sub_cancel_left, Fin.getElem_fin]

/-- Settles O13: the image is stored from 0x200 up, and the font lies below it. -/
theorem resetLoadsImageAndFont : Obligations.ResetLoadsImageAndFont := by
  intro image q s h
  refine ⟨_, rfl, fun j hj => ?_, fun j => ?_⟩
  · rw [resetWith_of_fits h]
    exact Memory.read_writeBytes_add q [] Config.entry j image hj
  · have hbase := q.fontBase.isLt
    have hj := j.isLt
    rw [readByte_resetWith_of_lt (by omega), resetByte_font]

/-- Settles O15: both resets build the same state but for the image region, the run state and the counter. -/
theorem oversizeImageHaltsAtReset : Obligations.OversizeImageHaltsAtReset := by
  intro image q s h
  have hover := resetWith_of_oversize (Nat.not_le.mpr h) q s.draws s.pending
  refine ⟨_, _, congrArg Host.Outcome.next hover, rfl, rfl, stepEvent_of_halted rfl, rfl, fun p hp => ?_, fun a ha => ?_⟩
  · refine SameData.same ?_ rfl
    cases p <;> simp [SameData, resetWith] at hp ⊢
  · rw [← hover, readByte_resetWith_of_lt ha, readByte_resetWith_of_lt ha]

end Sys2Proof.Machine
end
